-- ==== Sys2Proof/Config.lean ====
section
/-! DEFINITION. The implementation parameters of `00_scope.md` R6, which the model takes as an argument, and the one value the
spec leaves open. -/

namespace Sys2Proof

/-- The parameters of R6. They stand in State so that every statement is about every value of them; no step changes them
(`10_state.md` R21). WORD_W and ARG_W are fixed by these through R6's own equations, see `wordW` and `argW`. -/
structure Config where
  /-- REPEAT_W: width of the repeat field of a run descriptor. -/
  repeatW   : Nat
  /-- ADDR_W: width of PC, LEN, WP and of every address. -/
  addrW     : Nat
  /-- MEM_CELLS: capacity of the STORE in cells. -/
  memCells  : Nat
  /-- STEP_DELAY: simulated latency of a step; no rule reads it (R154, R241). Log 12. -/
  stepDelay : Nat
  deriving DecidableEq, Repr

/-- `WORD_W = 2 + REPEAT_W` (R6). -/
def Config.wordW (c : Config) : Nat := 2 + c.repeatW

/-- `ARG_W = max(WORD_W, ADDR_W)` (R6). -/
def Config.argW (c : Config) : Nat := max c.wordW c.addrW

/-- The largest count a repeat field holds, 16383 at the default width (`30_encoding.md` R82). -/
def Config.maxRepeat (c : Config) : Nat := 2 ^ c.repeatW - 1

/-- The default values of R6. -/
def Config.default : Config where
  repeatW := 14
  addrW := 16
  memCells := 65535
  stepDelay := 1

/-- The constraints of R6. -/
abbrev Config.ok (c : Config) : Prop :=
  1 ≤ c.repeatW ∧ 1 ≤ c.addrW ∧ 1 ≤ c.memCells ∧ c.memCells ≤ 2 ^ c.addrW - 1

/-- Free value: what IllegalCommand answers where ARG_W is 3 and the 4-bit command code does not fit DATA. The spec widens the
code with zeros (`30_encoding.md` R87) and states nothing for a narrower port. Log 19. -/
opaque Config.freeInfo : BitVec 4 → Nat

end Sys2Proof
end

