-- ==== Sys2Proof/Word.lean ====
section
/-! DEFINITION. The numbers of S216-XR. Their widths are parameters (`00_scope.md` R6), every one of them is unsigned and all
arithmetic on them is on natural numbers (R8, R9); so a register, a cell, an address and a code word are natural numbers, each
below the power of two that the invariant or the well-formedness check names (log 5). -/

namespace Sys2Proof

/-- `n` is a value of an unsigned field of `width` bits (`00_scope.md` R8). -/
abbrev Fits (width n : Nat) : Prop := n < 2 ^ width

end Sys2Proof
end

