-- ==== Sys2Proof/Syntax.lean ====
section
/-! DEFINITION. The instructions: one constructor per row of `spec/opcode_table.json`. -/

namespace Sys2Proof

/-- The sixteen rows of the opcode table. Formats U and R stand in a cell and in the argument of XR_RUN; format H is
what the command port carries (`30_encoding.md` R80, R95). An argument the command ignores is still an operand, so that
no bit of an encoding is dropped (R86). -/
inductive Instr where
  /-- Unit instruction `Compute` (`41_sequencer.md` R142). -/
  | compute
  /-- Unit instruction `IoWait` (R143). -/
  | ioWait
  /-- Unit instruction `Halt` (R144). -/
  | halt
  /-- Run instruction `Compute(n)` (`40_expansion.md` R115). -/
  | runCompute (n : Nat)
  /-- Run instruction `IoWait(n)` (R116). -/
  | runIoWait (n : Nat)
  /-- Run instruction `Halt(n)` (R117). -/
  | runHalt (n : Nat)
  /-- Command XR_RUN; the argument is a run word (R114). -/
  | xrRun (arg : Nat)
  /-- Command XR_END; argument ignored (R118). -/
  | xrEnd (arg : Nat)
  /-- Command XR_ABORT; argument ignored (R119). -/
  | xrAbort (arg : Nat)
  /-- Command STEP; argument ignored (`41_sequencer.md` R140). -/
  | step (arg : Nat)
  /-- Command PC_LOAD; the argument is the new PC (R147). -/
  | pcLoad (arg : Nat)
  /-- Command CPU_RESET; argument ignored (R148). -/
  | cpuReset (arg : Nat)
  /-- Command FETCH; the argument is an address (`42_host.md` R171). -/
  | fetch (arg : Nat)
  /-- Command RD_PC; argument ignored (R172). -/
  | rdPc (arg : Nat)
  /-- Command RD_IR; argument ignored (R173). -/
  | rdIr (arg : Nat)
  /-- Command RD_LEN; argument ignored (R174). -/
  | rdLen (arg : Nat)
  deriving DecidableEq, Repr

end Sys2Proof
end

