-- ==== Sys2Proof/WellFormed.lean ====
section
/-! DEFINITION. Which instructions have an encoding: a run's count must fit the repeat field, a command's argument its port. -/

namespace Sys2Proof

/-- A run's count fits REPEAT_W bits (`30_encoding.md` R82) and an argument fits ARG_W bits (R85), also where it is ignored. A
longer count is legal assembly and is split into several runs first (R93). Log 11. -/
def Instr.wellFormed (c : Config) : Instr → Bool
  | .compute      => true
  | .ioWait       => true
  | .halt         => true
  | .runCompute n => decide (n ≤ c.maxRepeat)
  | .runIoWait n  => decide (n ≤ c.maxRepeat)
  | .runHalt n    => decide (n ≤ c.maxRepeat)
  | .xrRun arg    => decide (Fits c.argW arg)
  | .xrEnd arg    => decide (Fits c.argW arg)
  | .xrAbort arg  => decide (Fits c.argW arg)
  | .step arg     => decide (Fits c.argW arg)
  | .pcLoad arg   => decide (Fits c.argW arg)
  | .cpuReset arg => decide (Fits c.argW arg)
  | .fetch arg    => decide (Fits c.argW arg)
  | .rdPc arg     => decide (Fits c.argW arg)
  | .rdIr arg     => decide (Fits c.argW arg)
  | .rdLen arg    => decide (Fits c.argW arg)

end Sys2Proof
end

