-- ==== Sys2Proof/Decode.lean ====
section
/-! DEFINITION. Encodings of `30_encoding.md` at the widths of R6: the fields of a word, the three formats, the decoder
(total, rejecting by name) and after it the encoder. -/

namespace Sys2Proof

/-! ### Fields of a word (R81 to R84) -/

/-- The three instruction kinds, in the order the spec lists them (`00_scope.md` R3). -/
inductive Kind where
  | compute
  | ioWait
  | halt
  deriving DecidableEq, Repr

/-- `kind(w)` = `w[WORD_W-1 : WORD_W-2]` (`00_scope.md` R9, R81). -/
def kindField (c : Config) (w : Nat) : BitVec 2 := BitVec.ofNat 2 (w / 2 ^ c.repeatW)

/-- `rep(w)` = `w[REPEAT_W-1 : 0]` (R9, R82). -/
def repField (c : Config) (w : Nat) : Nat := w % 2 ^ c.repeatW

/-- The kind codes of R81. -/
def Kind.code : Kind → BitVec 2
  | .compute => 0b00#2
  | .ioWait  => 0b01#2
  | .halt    => 0b10#2

/-- The kind a code stands for; `2'b11` stands for none (R81). -/
def kindOfCode (k : BitVec 2) : Option Kind :=
  if k = 0b00#2 then some .compute
  else if k = 0b01#2 then some .ioWait
  else if k = 0b10#2 then some .halt
  else none

/-- The word with a kind code in the high bits and a repeat count below: `kind * 2^REPEAT_W + N` (R82). -/
def fieldsWord (c : Config) (k : BitVec 2) (n : Nat) : Nat := k.toNat * 2 ^ c.repeatW + n % 2 ^ c.repeatW

/-- The format R word of a kind and a count (R82). -/
def runWord (c : Config) (k : Kind) (n : Nat) : Nat := fieldsWord c k.code n

/-- `unit(k)`: the format U word, the repeat field zero (R83, `00_scope.md` R9). -/
def Kind.unitWord (c : Config) (k : Kind) : Nat := runWord c k 0

/-- `isHalt(w)`: the kind code is Halt's; the repeat field is not looked at (`40_expansion.md` R111). -/
def isHalt (c : Config) (w : Nat) : Bool := kindField c w == 0b10#2

/-- The IR sentinel NONE: kind code `2'b11`, repeat 0 (R84). -/
def noneWord (c : Config) : Nat := fieldsWord c 0b11#2 0

/-- The run that the low WORD_W bits of a number encode: its kind and its count, or none for the reserved kind code (R95). -/
def runOfWord (c : Config) (w : Nat) : Option (Kind × Nat) :=
  match kindOfCode (kindField c w) with
  | some k => some (k, repField c w)
  | none   => none

/-- The unit instruction a cell's word encodes; none for the reserved kind code and for a word that is not the kind's own unit
word, which no cell of a run holds (R90, `93_implementation_defined.md` U6). -/
def unitOfWord (c : Config) (w : Nat) : Option Kind :=
  match kindOfCode (kindField c w) with
  | some k => if w = k.unitWord c then some k else none
  | none   => none

/-! ### Code words and the decoder -/

/-- A code word with the place it stands in, which fixes its format (R80): a cell holds format U, the argument of XR_RUN
format R, the command port format H, the number `(CMD, ARG)` with CMD above the ARG_W bits of ARG (R95). -/
inductive Code where
  | unit (w : Nat)
  | run (w : Nat)
  | command (v : Nat)
  deriving DecidableEq, Repr

/-- Why a code word is no instruction (R90). -/
inductive Reject where
  /-- Kind code `2'b11` in a cell: cannot occur in a run of the machine (U6). -/
  | reservedUnitKind (w : Nat)
  /-- A cell whose repeat field is not zero: cannot occur in a run of the machine (U6). -/
  | unitRepeatNotZero (w : Nat)
  /-- Kind code `2'b11` in a run word: IllegalRun (`60_exceptions.md` R203). -/
  | reservedRunKind (w : Nat)
  /-- CMD `0x0` or `0xB` to `0xF`: IllegalCommand (R204). -/
  | reservedCommand (cmd : BitVec 4)
  /-- A number that has more bits than its format (R80, R85): no code word at all. DESIGN CHOICE, log 20. -/
  | tooWide (v : Nat)
  deriving DecidableEq, Repr

/-- What decoding answers. -/
inductive Decoded where
  | ok (i : Instr)
  | reject (r : Reject)
  deriving DecidableEq, Repr

/-- The unit instruction of a kind. -/
def Kind.unitInstr : Kind → Instr
  | .compute => .compute
  | .ioWait  => .ioWait
  | .halt    => .halt

/-- The run instruction of a kind and a count. -/
def Kind.runInstr : Kind → Nat → Instr
  | .compute, n => .runCompute n
  | .ioWait, n  => .runIoWait n
  | .halt, n    => .runHalt n

/-- Why a cell's word is no unit instruction. -/
def rejectUnit (c : Config) (w : Nat) : Reject :=
  if 2 ^ c.wordW ≤ w then .tooWide w
  else if kindField c w = 0b11#2 then .reservedUnitKind w
  else .unitRepeatNotZero w

/-- A cell's word (R83, R95). -/
def decodeUnit (c : Config) (w : Nat) : Decoded :=
  match unitOfWord c w with
  | some k => .ok k.unitInstr
  | none   => .reject (rejectUnit c w)

/-- A run word (R82, R95). -/
def decodeRun (c : Config) (w : Nat) : Decoded :=
  if w < 2 ^ c.wordW then
    match runOfWord c w with
    | some (k, n) => .ok (k.runInstr n)
    | none        => .reject (.reservedRunKind w)
  else .reject (.tooWide w)

/-- A host command, by CMD alone (R86, R95). -/
def decodeCommand (cmd : BitVec 4) (arg : Nat) : Decoded :=
  if cmd = 0x1#4 then .ok (.xrRun arg)
  else if cmd = 0x2#4 then .ok (.xrEnd arg)
  else if cmd = 0x3#4 then .ok (.xrAbort arg)
  else if cmd = 0x4#4 then .ok (.step arg)
  else if cmd = 0x5#4 then .ok (.pcLoad arg)
  else if cmd = 0x6#4 then .ok (.cpuReset arg)
  else if cmd = 0x7#4 then .ok (.fetch arg)
  else if cmd = 0x8#4 then .ok (.rdPc arg)
  else if cmd = 0x9#4 then .ok (.rdIr arg)
  else if cmd = 0xA#4 then .ok (.rdLen arg)
  else .reject (.reservedCommand cmd)

/-- `CMD`: the four bits above ARG, bits 19:16 at the default widths (R95). -/
def cmdField (c : Config) (v : Nat) : BitVec 4 := BitVec.ofNat 4 (v / 2 ^ c.argW)

/-- `ARG`: the low ARG_W bits (R95). -/
def argField (c : Config) (v : Nat) : Nat := v % 2 ^ c.argW

/-- The decoder: total, and it needs no state (R95). -/
def decode (c : Config) : Code → Decoded
  | .unit w    => decodeUnit c w
  | .run w     => decodeRun c w
  | .command v =>
    if v < 2 ^ (4 + c.argW) then decodeCommand (cmdField c v) (argField c v) else .reject (.tooWide v)

/-! ### The encoder -/

/-- The number `(CMD, ARG)` of a command code and the ARG_W bits of an argument (R95). -/
def commandWord (c : Config) (cmd : BitVec 4) (arg : Nat) : Nat := cmd.toNat * 2 ^ c.argW + arg % 2 ^ c.argW

/-- The code word of an instruction, from the tables of R82, R83 and R86. -/
def encode (c : Config) : Instr → Code
  | .compute      => .unit (runWord c .compute 0)
  | .ioWait       => .unit (runWord c .ioWait 0)
  | .halt         => .unit (runWord c .halt 0)
  | .runCompute n => .run (runWord c .compute n)
  | .runIoWait n  => .run (runWord c .ioWait n)
  | .runHalt n    => .run (runWord c .halt n)
  | .xrRun a      => .command (commandWord c 0x1#4 a)
  | .xrEnd a      => .command (commandWord c 0x2#4 a)
  | .xrAbort a    => .command (commandWord c 0x3#4 a)
  | .step a       => .command (commandWord c 0x4#4 a)
  | .pcLoad a     => .command (commandWord c 0x5#4 a)
  | .cpuReset a   => .command (commandWord c 0x6#4 a)
  | .fetch a      => .command (commandWord c 0x7#4 a)
  | .rdPc a       => .command (commandWord c 0x8#4 a)
  | .rdIr a       => .command (commandWord c 0x9#4 a)
  | .rdLen a      => .command (commandWord c 0xA#4 a)

/-! ### The opcode table's numbering of bits -/

/-- A command's width in whole bytes. -/
def Config.commandBits (c : Config) : Nat := (4 + c.argW + 7) / 8 * 8

/-- A table word with its place. WORD_W bits are format U or R, and the two overlap: a word with a zero repeat field is read
as the unit instruction, any other as a run (DESIGN CHOICE, log 8: in the machine the place decides, and `decode` is told the
place). Four bits more than ARG_W, or as many in whole bytes, are a command. -/
def codeOfTableWord (c : Config) (nbits w : Nat) : Option Code :=
  if nbits = c.wordW then
    if w < 2 ^ c.wordW then some (if repField c w = 0 then .unit w else .run w) else none
  else if nbits = 4 + c.argW ∨ nbits = c.commandBits then
    if w < 2 ^ (4 + c.argW) then some (.command w) else none
  else none

/-- The instruction the decoder reads from a table word of `nbits` bits at the widths given. -/
def decodeTableWordAt (c : Config) (nbits w : Nat) : Option Instr :=
  match codeOfTableWord c nbits w with
  | none   => none
  | some d =>
    match decode c d with
    | .ok i     => some i
    | .reject _ => none

/-- The same at the default widths, those `spec/opcode_table.json` is written at (R95). -/
def decodeTableWord (nbits w : Nat) : Option Instr := decodeTableWordAt Config.default nbits w

end Sys2Proof
end

