-- ==== Sys2Proof/Machine/State.lean ====
section
/-! DEFINITION. The state of S216-XR (`10_state.md` R20, R31) and the reasons a step of the model can stop. -/

namespace Sys2Proof.Machine

/-- The STATUS of a response: five values and no others (`30_encoding.md` R87, U10). -/
inductive Status where
  | ok
  | outOfRange
  | storeFull
  | illegalRun
  | illegalCommand
  deriving DecidableEq, Repr

/-- The one response that ends a command (R87). DATA has ARG_W bits (R85). -/
structure Response where
  status : Status
  data   : Nat
  deriving DecidableEq, Repr

/-- The record a successful STEP puts on the trace port (R88): TRACE_OP has WORD_W bits, TRACE_PC ADDR_W (R85). -/
structure TraceRecord where
  op : Nat
  pc : Nat
  deriving DecidableEq, Repr

/-- One sample of the block's input ports RST, CMD_VALID, CMD and ARG (R85): a command is taken when CMD_VALID is high
and RST is low. ARG has ARG_W wires, so only that many low bits of the number count. Logs 1, 20. -/
structure PortsIn where
  rst      : Bool
  cmdValid : Bool
  cmd      : BitVec 4
  arg      : Nat
  deriving DecidableEq, Repr

/-- CELL: (address, word) pairs with strictly rising addresses, addresses of ADDR_W bits and words of WORD_W. An unlisted
address is absent: it has no architectural content (R29, U2). Log 6. -/
abbrev Memory := List (Nat × Nat)

/-- Why the model stops. No fault of the hardware is here: those are responses and the machine goes on (R207, R208). -/
inductive Fault where
  /-- STEP, FETCH or XR_END reads a cell below LEN (WP for XR_END) that has no content. No run reaches such a state
  (R28). Safe: nothing is invented for the missing cell (R201). -/
  | absentCell (a : Nat)
  /-- STEP or FETCH reads a committed cell that is no unit instruction. No run reaches such a state (R28 item 2). Safe:
  R90 and U6 ask for a fault here. -/
  | malformedCell (a : Nat) (w : Nat)
  deriving DecidableEq, Repr

/-- Why the model has no meaning for an instruction. -/
inductive Refusal where
  /-- An arm of `exec` whose instruction has no meaning yet. Safe. No arm answers so: every instruction has its meaning. -/
  | notModelled (mnemonic : String)
  deriving DecidableEq, Repr

/-- The machine. The five elements of R20, the parameters of R6, and the model's own input list and output histories. Every
number has the width R20 gives it, which `Inv` says; the widths are those of `cfg` (log 5). -/
structure State where
  /-- The parameters, fixed for the life of the machine (R6, R21). -/
  cfg       : Config
  /-- PC, ADDR_W bits: the address of the next instruction to fetch (R22). -/
  pc        : Nat
  /-- IR, WORD_W bits: the last non-Halt unit instruction executed, or NONE (R24). -/
  ir        : Nat
  /-- CELL: the instruction store, MEM_CELLS cells of WORD_W bits (R29). -/
  cells     : Memory
  /-- LEN, ADDR_W bits: the number of committed cells (R26). -/
  len       : Nat
  /-- WP, ADDR_W bits: where the XR writes the next unit instruction (R27). -/
  wp        : Nat
  /-- The model's own: the input samples still to come (log 1). -/
  inputs    : List PortsIn
  /-- The model's own: the responses given, oldest first; no step reads them (log 4). -/
  responses : List Response
  /-- The model's own: the trace records emitted, oldest first; no step reads them (R180, log 4). -/
  trace     : List TraceRecord
  deriving DecidableEq, Repr

/-- The machine of the given parameters after hardware reset (R31), with nothing offered or emitted (log 15). -/
def State.resetAt (c : Config) : State where
  cfg := c
  pc := 0
  ir := noneWord c
  cells := []
  len := 0
  wp := 0
  inputs := []
  responses := []
  trace := []

/-- The machine after hardware reset with the default parameters of R6. -/
def State.reset : State := State.resetAt Config.default

end Sys2Proof.Machine
end

