-- ==== Sys2Proof/Machine/Flags.lean ====
section
/-! DEFINITION. S216-XR has no flags (`10_state.md` R25): what a command tests, it tests on the state it finds and stores
nowhere. These are all the tests there are (`41_sequencer.md` R150), every one on natural numbers. -/

namespace Sys2Proof.Machine

/-- The range check of STEP and FETCH: valid addresses are `0 <= a < LEN` (`20_memory.md` R51). -/
def State.inRange (s : State) (a : Nat) : Bool := decide (a < s.len)

/-- Whether `m` more cells fit at WP: not `WP + m > MEM_CELLS` (`40_expansion.md` R114, R118). -/
def State.fits (s : State) (m : Nat) : Bool := decide (s.wp + m ≤ s.cfg.memCells)

/-- Whether a program is pending: `WP > LEN` (R27, R118). -/
def State.hasPending (s : State) : Bool := decide (s.len < s.wp)

end Sys2Proof.Machine
end

