-- ==== Sys2Proof/Machine/Operands.lean ====
section
/-! DEFINITION. The operands of the machine (`30_encoding.md` R85, R89): a repeat count, an address, a run word. -/

namespace Sys2Proof.Machine

/-- How many unit instructions a run of count `n` stands for: `max(n, 1)` (R89, `40_expansion.md` R110). -/
def runLength (n : Nat) : Nat := max n 1

/-- The address operand `ARG[ADDR_W-1:0]`; the bits above it are ignored (R85, R89). -/
def State.addrOperand (s : State) (arg : Nat) : Nat := arg % 2 ^ s.cfg.addrW

/-- The run word operand `ARG[WORD_W-1:0]`; the bits above it are ignored (R85). -/
def State.runOperand (s : State) (arg : Nat) : Nat := arg % 2 ^ s.cfg.wordW

end Sys2Proof.Machine
end

