-- ==== Sys2Proof/Machine/Ops.lean ====
section
/-! DEFINITION. The named operations over the store and the registers, and the one operation that delivers a fault. -/

namespace Sys2Proof.Machine

/-! ### The store -/

/-- The canonical form: addresses strictly rising. No entry can equal what an unlisted address reads as, since that is
no word at all (log 6). -/
abbrev Memory.wf (m : Memory) : Prop := m.Pairwise fun x y => x.1 < y.1

/-- The content of a cell; none where it has none. -/
def Memory.read : Memory → Nat → Option Nat
  | [], _          => none
  | (b, v) :: m, a => if a = b then some v else Memory.read m a

/-- `CELL[a] <- v`, keeping the addresses in order (`20_memory.md` R53). -/
def Memory.write : Memory → Nat → Nat → Memory
  | [], a, v          => [(a, v)]
  | (b, w) :: m, a, v =>
    if a < b then (a, v) :: (b, w) :: m
    else if a = b then (a, v) :: m
    else (b, w) :: Memory.write m a v

/-- The write loop of XR_RUN: `n` cells from `a` upward, each `v` (`40_expansion.md` R114). -/
def Memory.fill (m : Memory) (a : Nat) (v : Nat) : Nat → Memory
  | 0     => m
  | n + 1 => Memory.write (Memory.fill m a v n) (a + n) v

/-- The cells below an address; the others lose their content (`10_state.md` R29). -/
def Memory.below (m : Memory) (a : Nat) : Memory := m.filter fun c => decide (c.1 < a)

/-- What reading a committed cell gives. -/
inductive CellRead where
  | cell (k : Kind)
  | outOfRange
  | stuck (f : Fault)
  deriving DecidableEq, Repr

/-- `MemRead(a, 1)` (R52): out of range at or above LEN, otherwise the unit instruction in the cell. A cell below LEN
that holds none is read in no run, and then the model stops by name (R90, U6). -/
def State.memRead (s : State) (a : Nat) : CellRead :=
  if s.inRange a then
    match Memory.read s.cells a with
    | none   => .stuck (.absentCell a)
    | some w =>
      match unitOfWord s.cfg w with
      | some k => .cell k
      | none   => .stuck (.malformedCell a w)
  else .outOfRange

/-! ### The registers and the two outputs -/

def State.setPc (s : State) (a : Nat) : State := { s with pc := a }

def State.setIr (s : State) (w : Nat) : State := { s with ir := w }

def State.setLen (s : State) (a : Nat) : State := { s with len := a }

def State.setWp (s : State) (a : Nat) : State := { s with wp := a }

def State.setCells (s : State) (m : Memory) : State := { s with cells := m }

def State.setInputs (s : State) (ps : List PortsIn) : State := { s with inputs := ps }

/-- End the command with one response (`30_encoding.md` R87). -/
def State.respond (s : State) (st : Status) (d : Nat) : State :=
  { s with responses := s.responses ++ [⟨st, d⟩] }

/-- Put one record on the trace port (R88, `42_host.md` R180). -/
def State.emit (s : State) (op : Nat) (a : Nat) : State :=
  { s with trace := s.trace ++ [⟨op, a⟩] }

/-! ### The XR -/

/-- `WP <- LEN`: the pending program is dropped and its cells have no content any more (`40_expansion.md` R119, R29;
log 7). -/
def State.dropPending (s : State) : State :=
  (s.setWp s.len).setCells (Memory.below s.cells s.len)

/-- Write `m` unit words of kind `k` at WP and advance WP (R114, R118). -/
def State.append (s : State) (k : Kind) (m : Nat) : State :=
  (s.setCells (Memory.fill s.cells s.wp (k.unitWord s.cfg) m)).setWp (s.wp + m)

/-! ### Faults of the hardware -/

/-- The four faults of `60_exceptions.md` R200, with what each needs to say. -/
inductive CmdFault where
  | outOfRange (a : Nat)
  | storeFull
  | illegalRun (w : Nat)
  | illegalCommand (cmd : BitVec 4)
  deriving DecidableEq, Repr

/-- The STATUS of a fault (R87, R200). -/
def CmdFault.status : CmdFault → Status
  | .outOfRange _     => .outOfRange
  | .storeFull        => .storeFull
  | .illegalRun _     => .illegalRun
  | .illegalCommand _ => .illegalCommand

/-- The information word of a fault (R87, R200). A command code is widened with zeros; where ARG_W is 3 and the code does not
fit, the spec states no value and a free one stands for it (log 19). -/
def CmdFault.info (s : State) : CmdFault → Nat
  | .outOfRange a     => a
  | .storeFull        => s.len
  | .illegalRun w     => w
  | .illegalCommand c =>
    if c.toNat < 2 ^ s.cfg.argW then c.toNat else Config.freeInfo c % 2 ^ s.cfg.argW

/-- The only state a fault changes is WP, and only for StoreFull and IllegalRun (R207). -/
def CmdFault.dropsPending : CmdFault → Bool
  | .outOfRange _     => false
  | .storeFull        => true
  | .illegalRun _     => true
  | .illegalCommand _ => false

/-- Delivering a fault, the one operation for all of them (R207): the command's response and nothing else, but that the
XR's faults drop the pending program. Nothing is saved, no mode changes and control goes nowhere, so there is no return
from a fault either (R208). -/
def takeFault (f : CmdFault) (s : State) : State :=
  (if f.dropsPending then s.dropPending else s).respond f.status (f.info s)

/-! ### Codes on the ports -/

/-- The numbers of R87. -/
def Status.code : Status → BitVec 4
  | .ok             => 0x0#4
  | .outOfRange     => 0x1#4
  | .storeFull      => 0x2#4
  | .illegalRun     => 0x3#4
  | .illegalCommand => 0x4#4

/-! ### Hardware reset -/

/-- A rising edge with RST high: every element takes its reset value (`70_reset_and_hazards.md` R230, `10_state.md` R31).
No response and no record; what was already put out stays in the histories, which are no state of the machine (R21). -/
def State.hardReset (s : State) : State :=
  { s with pc := 0, ir := noneWord s.cfg, cells := [], len := 0, wp := 0 }

/-! ### Where the model puts an instruction from outside -/

/-- Offer a command on the port before everything else still to come. -/
def State.offer (s : State) (cmd : BitVec 4) (arg : Nat) : State :=
  s.setInputs (⟨false, true, cmd, arg⟩ :: s.inputs)

/-- Put a word into the committed cell at PC, as a load from outside would (log 9). Where PC is no cell of the store the word
goes to address 0, and PC with it. -/
def State.placeAtPc (s : State) (w : Nat) : State :=
  let a : Nat := if s.pc < s.cfg.memCells then s.pc else 0
  let l : Nat := max s.len (a + 1)
  let p : Nat := max s.wp l
  { s with pc := a, cells := Memory.write s.cells a w, len := l, wp := p }

end Sys2Proof.Machine
end

