-- ==== Sys2Proof/Machine/HostRead.lean ====
section
/-! DEFINITION. The read-only commands FETCH, RD_PC, RD_IR, RD_LEN (`42_host.md` section 2). -/

namespace Sys2Proof.Machine

/-- FETCH: one committed cell, or OutOfRange; a pending cell cannot be read (R171). -/
def execFetch (arg : Nat) (s : State) : Host.Outcome State Fault Refusal :=
  match s.memRead (s.addrOperand arg) with
  | .outOfRange => .next (takeFault (.outOfRange (s.addrOperand arg)) s)
  | .stuck f    => .fault f
  | .cell k     => .next (s.respond .ok (k.unitWord s.cfg))

/-- RD_PC: PC, widened with zeros to ARG_W bits (R172). -/
def execRdPc (_arg : Nat) (s : State) : Host.Outcome State Fault Refusal := .next (s.respond .ok s.pc)

/-- RD_IR: IR; reading the sentinel is no fault (R173). -/
def execRdIr (_arg : Nat) (s : State) : Host.Outcome State Fault Refusal := .next (s.respond .ok s.ir)

/-- RD_LEN: LEN; pending cells are not counted (R174). -/
def execRdLen (_arg : Nat) (s : State) : Host.Outcome State Fault Refusal := .next (s.respond .ok s.len)

end Sys2Proof.Machine
end

