-- ==== Sys2Proof/Machine/Router.lean ====
section
/-! DEFINITION. The expansion router: the run instructions and the commands XR_RUN, XR_END, XR_ABORT
(`40_expansion.md` section 2). -/

namespace Sys2Proof.Machine

/-- Append one run of kind `k` and count `n` to the pending program, or drop it with StoreFull when the expanded run does
not fit (R114 from the line `m <- max(n, 1)` on). -/
def appendRun (k : Kind) (n : Nat) (s : State) : State :=
  if s.fits (runLength n) then (s.append k (runLength n)).respond .ok 0
  else takeFault .storeFull s

/-- `Compute(n)` given to XR_RUN (R115). -/
def execRunCompute (n : Nat) (s : State) : Host.Outcome State Fault Refusal := .next (appendRun .compute n s)

/-- `IoWait(n)` given to XR_RUN (R116). -/
def execRunIoWait (n : Nat) (s : State) : Host.Outcome State Fault Refusal := .next (appendRun .ioWait n s)

/-- `Halt(n)` given to XR_RUN (R117). -/
def execRunHalt (n : Nat) (s : State) : Host.Outcome State Fault Refusal := .next (appendRun .halt n s)

/-- XR_RUN: the run its argument encodes, or IllegalRun, which is tested first (R114, R206). -/
def execXrRun (arg : Nat) (s : State) : Host.Outcome State Fault Refusal :=
  match runOfWord s.cfg (s.runOperand arg) with
  | none               => .next (takeFault (.illegalRun (s.runOperand arg)) s)
  | some (.compute, n) => execRunCompute n s
  | some (.ioWait, n)  => execRunIoWait n s
  | some (.halt, n)    => execRunHalt n s

/-- Does the pending program end in a Halt: `(WP > LEN) and isHalt(CELL[WP - 1])` (R118). None when the cell has no
content, which is so in no run. -/
def State.pendingEndsInHalt (s : State) : Option Bool :=
  if s.hasPending then
    match Memory.read s.cells (s.wp - 1) with
    | some w => some (isHalt s.cfg w)
    | none   => none
  else some false

/-- The commit: `LEN <- WP`, the response carrying the base of the program committed (R118). -/
def State.commit (s : State) : State := (s.setLen s.wp).respond .ok s.len

/-- XR_END: close the pending program with a Halt where it lacks one and commit it, or drop it with StoreFull when that
Halt does not fit (R118). -/
def execXrEnd (_arg : Nat) (s : State) : Host.Outcome State Fault Refusal :=
  match s.pendingEndsInHalt with
  | none       => .fault (.absentCell (s.wp - 1))
  | some true  => .next s.commit
  | some false => .next (if s.fits 1 then (s.append .halt 1).commit else takeFault .storeFull s)

/-- XR_ABORT: drop the pending program (R119). -/
def execXrAbort (_arg : Nat) (s : State) : Host.Outcome State Fault Refusal :=
  .next (s.dropPending.respond .ok 0)

end Sys2Proof.Machine
end

