-- ==== Sys2Proof/Machine/Sequencer.lean ====
section
/-! DEFINITION. The sequencer: the three unit instructions and the commands STEP, PC_LOAD, CPU_RESET
(`41_sequencer.md`). -/

namespace Sys2Proof.Machine

/-- Actions 2 to 5 of a step that fetched `op` at PC (R140): the trace record carries PC before the increment, IR is
latched unless `op` is a Halt, PC advances whatever the kind, and the response carries `op`. The delay of action 2 has no
effect on the state (R154). -/
def State.stepOver (s : State) (op : Nat) : State :=
  let s₁ := s.emit op s.pc
  let s₂ := if isHalt s.cfg op then s₁ else s₁.setIr op
  (s₂.setPc (s₂.pc + 1)).respond .ok op

/-- `Compute` (R142). -/
def execCompute (s : State) : Host.Outcome State Fault Refusal := .next (s.stepOver (Kind.unitWord s.cfg .compute))

/-- `IoWait` (R143): executed like Compute, it waits for nothing. -/
def execIoWait (s : State) : Host.Outcome State Fault Refusal := .next (s.stepOver (Kind.unitWord s.cfg .ioWait))

/-- `Halt` (R144): stepped over like the others, IR left alone; it does not stop the machine (R145). -/
def execHalt (s : State) : Host.Outcome State Fault Refusal := .next (s.stepOver (Kind.unitWord s.cfg .halt))

/-- STEP: fetch the cell at PC and execute it, or OutOfRange with nothing changed (R140, R146). -/
def execStep (_arg : Nat) (s : State) : Host.Outcome State Fault Refusal :=
  match s.memRead s.pc with
  | .outOfRange    => .next (takeFault (.outOfRange s.pc) s)
  | .stuck f       => .fault f
  | .cell .compute => execCompute s
  | .cell .ioWait  => execIoWait s
  | .cell .halt    => execHalt s

/-- PC_LOAD: any value, compared with nothing; IR is not touched (R147). -/
def execPcLoad (arg : Nat) (s : State) : Host.Outcome State Fault Refusal :=
  .next ((s.setPc (s.addrOperand arg)).respond .ok 0)

/-- CPU_RESET: PC and IR only; the STORE and the XR keep everything (R148). -/
def execCpuReset (_arg : Nat) (s : State) : Host.Outcome State Fault Refusal :=
  .next (((s.setPc 0).setIr (noneWord s.cfg)).respond .ok 0)

end Sys2Proof.Machine
end

