-- ==== Sys2Proof/Machine/Dispatch.lean ====
section
/-! DEFINITION. One arm per instruction. -/

namespace Sys2Proof.Machine

def exec (i : Instr) (s : State) : Host.Outcome State Fault Refusal :=
  match i with
  | .compute => Sys2Proof.Machine.execCompute s
  | .ioWait => Sys2Proof.Machine.execIoWait s
  | .halt => Sys2Proof.Machine.execHalt s
  | .runCompute n => Sys2Proof.Machine.execRunCompute n s
  | .runIoWait n => Sys2Proof.Machine.execRunIoWait n s
  | .runHalt n => Sys2Proof.Machine.execRunHalt n s
  | .xrRun arg => Sys2Proof.Machine.execXrRun arg s
  | .xrEnd arg => Sys2Proof.Machine.execXrEnd arg s
  | .xrAbort arg => Sys2Proof.Machine.execXrAbort arg s
  | .step arg => Sys2Proof.Machine.execStep arg s
  | .pcLoad arg => Sys2Proof.Machine.execPcLoad arg s
  | .cpuReset arg => Sys2Proof.Machine.execCpuReset arg s
  | .fetch arg => Sys2Proof.Machine.execFetch arg s
  | .rdPc arg => Sys2Proof.Machine.execRdPc arg s
  | .rdIr arg => Sys2Proof.Machine.execRdIr arg s
  | .rdLen arg => Sys2Proof.Machine.execRdLen arg s

end Sys2Proof.Machine
end

