-- ==== Sys2Proof/Machine/Ports.lean ====
section
/-! DEFINITION. The ports of `30_encoding.md` R85: what a sample of the inputs asks for, and what the outputs show of one
step. -/

namespace Sys2Proof.Machine

/-- CMD_READY: low while RST is high (`70_reset_and_hazards.md` R230); otherwise high, since a step of the model starts
only when the command before it has been answered (`00_scope.md` R7, R85). -/
def PortsIn.cmdReady (p : PortsIn) : Bool := !p.rst

/-- A command is taken when CMD_VALID and CMD_READY are both high (R85). -/
def PortsIn.takes (p : PortsIn) : Bool := p.cmdValid && p.cmdReady

/-- What the output ports show of one step. `rsp` is none while RSP_VALID is low, `trace` none while TRACE_VALID is low
(R85). -/
structure PortsOut where
  rsp   : Option Response
  trace : Option TraceRecord
  deriving DecidableEq, Repr

/-- The pulses of the step from `s` to `t`, read off the two histories. -/
def portsOut (s t : State) : PortsOut where
  rsp := (t.responses.drop s.responses.length).head?
  trace := (t.trace.drop s.trace.length).head?

/-- The next sample, and the state once it is used up. -/
def State.sample (s : State) : Option (PortsIn × State) :=
  match s.inputs with
  | []      => none
  | p :: ps => some (p, s.setInputs ps)

/-- What a sample asks for. -/
inductive Request where
  /-- RST is high. -/
  | reset
  /-- Nothing is offered. -/
  | idle
  /-- A command is taken and decodes. -/
  | run (i : Instr)
  /-- A command is taken and its code is reserved. -/
  | reserved (cmd : BitVec 4)
  deriving DecidableEq, Repr

/-- RST wins over an offered command, which is then not taken (R230; log 16). A taken command decodes by CMD alone (R95). -/
def PortsIn.request (c : Config) (p : PortsIn) : Request :=
  if p.rst then .reset
  else if p.takes then
    match decode c (.command (commandWord c p.cmd p.arg)) with
    | .ok i     => .run i
    | .reject _ => .reserved p.cmd
  else .idle

end Sys2Proof.Machine
end

