-- ==== Sys2Proof/Machine/Step.lean ====
section
/-! DEFINITION. One step of the machine: one sample of its input ports, and the command it offers performed to completion
(`00_scope.md` R7). -/

namespace Sys2Proof.Machine

/-- With no sample left nothing is offered and the idle machine holds its state (`60_exceptions.md` R215). RST resets
(R230); a command that decodes is executed; a reserved one is IllegalCommand (`42_host.md` R175). -/
def step (s : State) : Host.Outcome State Fault Refusal :=
  match s.sample with
  | none        => .next s
  | some (p, u) =>
    match p.request s.cfg with
    | .reset      => .next u.hardReset
    | .idle       => .next u
    | .run i      => exec i u
    | .reserved c => .next (takeFault (.illegalCommand c) u)

/-- `s` with a table word placed where the next step fetches it: a unit instruction in the committed cell at PC with STEP
offered, a run word as the argument of an offered XR_RUN, a command offered as it is (log 9). -/
def State.withFetchWord (s : State) (nbits w : Nat) : State :=
  match codeOfTableWord s.cfg nbits w with
  | none              => s
  | some (.unit v)    => (s.placeAtPc v).offer 0x4#4 0
  | some (.run v)     => s.offer 0x1#4 v
  | some (.command c) => s.offer (cmdField s.cfg c) (argField s.cfg c)

end Sys2Proof.Machine
end

