-- ==== Sys2Proof/Machine/Expansion.lean ====
section
/-! DEFINITION. The source's contracts as pure functions on lists (`40_expansion.md` section 1), and the splitting of a
long run (`30_encoding.md` R93). No step calls them: they say what the commands amount to (R120). -/

namespace Sys2Proof.Machine

/-- The source's record `(kind, repeat)`: a run before expansion, a unit instruction (repeat 0) after it (R82, R83). The
count is any natural number, as in the source. -/
structure Run where
  kind : Kind
  rep  : Nat
  deriving DecidableEq, Repr

/-- `unit(k)`: the unit instruction of a kind. -/
def Run.unit (k : Kind) : Run := ⟨k, 0⟩

/-- The word of a run whose count fits its field (R82). -/
def Run.word (c : Config) (r : Run) : Nat := runWord c r.kind r.rep

/-- `isHalt(instr)`: the kind is Halt (R111). -/
def Run.isHalt (r : Run) : Bool := r.kind == .halt

/-- `expand`: exactly `max(N, 1)` unit instructions of the same kind (R110). -/
def expand (r : Run) : List Run := List.replicate (runLength r.rep) (Run.unit r.kind)

/-- Whether a tape already ends in a Halt; the empty one does not (R112). -/
def endsInHalt (t : List Run) : Bool :=
  match t.getLast? with
  | some r => r.isHalt
  | none   => false

/-- The closing Halt, added only where the tape does not end in one (R112, R118). -/
def closeTape (t : List Run) : List Run := if endsInHalt t then t else t ++ [Run.unit .halt]

/-- `construct`: the expansions in order, closed by a Halt (R112). Total (R113). -/
def construct (rs : List Run) : List Run := closeTape (rs.flatMap expand)

/-- A run whose count is above the largest that fits, M = 16383 at the default width, as runs that each fit: `floor(N / M)`
runs of M, then the remainder when it is not 0. A count that fits stays as it is (R93). -/
def Run.split (c : Config) (r : Run) : List Run :=
  if r.rep ≤ c.maxRepeat then [r]
  else
    List.replicate (r.rep / c.maxRepeat) ⟨r.kind, c.maxRepeat⟩ ++
      (if r.rep % c.maxRepeat = 0 then [] else [⟨r.kind, r.rep % c.maxRepeat⟩])

/-- The run words of a program, long runs split (R92, R93). -/
def assemble (c : Config) (rs : List Run) : List Nat := (rs.flatMap (Run.split c)).map (Run.word c)

end Sys2Proof.Machine
end

