-- ==== Sys2Proof/Machine/Pseudo.lean ====
section
/-! DEFINITION. The host's pseudo-commands LOAD, RUN and DUMP (`42_host.md` section 3): no hardware, but programs over the
commands. Each command is offered on the port and performed by one `step` (log 13). -/

namespace Sys2Proof.Machine

/-- Offer one command and let the machine perform it. -/
def issue (cmd : BitVec 4) (arg : Nat) (s : State) : Host.Outcome State Fault Refusal := step (s.offer cmd arg)

/-- The response to the command performed last. -/
def State.lastResponse (s : State) : Option Response := s.responses.getLast?

/-- Whether that response is OK. -/
def State.lastOk (s : State) : Bool := (s.lastResponse.map Response.status) == some .ok

/-- Whether that response's DATA is a Halt word. -/
def State.lastHalt (s : State) : Bool := (s.lastResponse.map fun r => isHalt s.cfg r.data) == some true

/-- The XR_RUN commands of LOAD and its XR_END, stopping at the first response that is not OK (R176). -/
def sendRuns : List Nat → State → Host.Outcome State Fault Refusal
  | [], s      => issue 0x2#4 0 s
  | w :: ws, s =>
    match issue 0x1#4 w s with
    | .next t    => if t.lastOk then sendRuns ws t else .next t
    | .fault f   => .fault f
    | .refused r => .refused r

/-- LOAD: XR_ABORT, one XR_RUN for each run word, XR_END (R176). -/
def load (ws : List Nat) (s : State) : Host.Outcome State Fault Refusal :=
  match issue 0x3#4 0 s with
  | .next t    => sendRuns ws t
  | .fault f   => .fault f
  | .refused r => .refused r

/-- At most `n` STEPs, stopping after the first whose response is not OK or whose DATA is a Halt word (R177). -/
def runAtMost : Nat → State → Host.Outcome State Fault Refusal
  | 0, s     => .next s
  | n + 1, s =>
    match issue 0x4#4 0 s with
    | .next t    => if t.lastOk && !t.lastHalt then runAtMost n t else .next t
    | .fault f   => .fault f
    | .refused r => .refused r

/-- RUN: STEP until a Halt was fetched or a response is not OK. `LEN - PC` steps succeed at most and the one after them
faults, so the bound never cuts the loop short (R177, R178; log 13). -/
def run (s : State) : Host.Outcome State Fault Refusal := runAtMost (s.len - s.pc + 1) s

/-- `n` STEP commands with no other command between them, whatever they answer (R152). -/
def steps : Nat → State → Host.Outcome State Fault Refusal
  | 0, s     => .next s
  | n + 1, s =>
    match issue 0x4#4 0 s with
    | .next t    => steps n t
    | .fault f   => .fault f
    | .refused r => .refused r

/-- The FETCH commands of DUMP: `n` cells from address `a` on, the listing gathered in order (R179). -/
def fetchFrom : Nat → Nat → State → Host.Outcome (List (Nat × Nat) × State) Fault Refusal
  | 0, _, s     => .next ([], s)
  | n + 1, a, s =>
    match issue 0x7#4 a s with
    | .fault f   => .fault f
    | .refused r => .refused r
    | .next t    =>
      match fetchFrom n (a + 1) t with
      | .fault f         => .fault f
      | .refused r       => .refused r
      | .next (rest, t') => .next ((t.lastResponse.map fun r => (a, r.data)).toList ++ rest, t')

/-- DUMP: RD_LEN, then FETCH of every address below the length it gave (R179). -/
def dump (s : State) : Host.Outcome (List (Nat × Nat) × State) Fault Refusal :=
  match issue 0xA#4 0 s with
  | .next t    => fetchFrom ((t.lastResponse.map fun r => r.data).getD 0) 0 t
  | .fault f   => .fault f
  | .refused r => .refused r

end Sys2Proof.Machine
end

