-- ==== Sys2Proof/Machine/Views.lean ====
section
/-! DEFINITION. The two views of CELL that the rules speak of, MEM and PEND (`10_state.md` R29), and the memory dump. -/

namespace Sys2Proof.Machine

/-- The words of `n` cells from address `a` upward; a cell without content gives none. -/
def Memory.slice (m : Memory) (a n : Nat) : List Nat := (List.range n).filterMap fun i => Memory.read m (a + i)

/-- MEM: the committed memory, `CELL[0]` to `CELL[LEN-1]` (R29). -/
def State.mem (s : State) : List Nat := Memory.slice s.cells 0 s.len

/-- PEND: the pending program, `CELL[LEN]` to `CELL[WP-1]` (R29). -/
def State.pend (s : State) : List Nat := Memory.slice s.cells s.len (s.wp - s.len)

/-- The listing of (address, instruction) pairs in address order, committed cells only (`20_memory.md` R67). -/
def State.memoryDump (s : State) : List (Nat × Nat) :=
  (List.range s.len).filterMap fun a => (Memory.read s.cells a).map fun w => (a, w)

/-- IR after the words `ws` have been stepped over: the last one that is no Halt, or the value before (R152, R182). -/
def irAfter (c : Config) (ir : Nat) (ws : List Nat) : Nat :=
  ((ws.filter fun w => !isHalt c w).getLast?).getD ir

/-- The records of stepping over the words `ws` from address `a` on (R152). -/
def recordsOf (a : Nat) (ws : List Nat) : List TraceRecord :=
  ws.zipIdx.map fun p => ⟨p.1, a + p.2⟩

end Sys2Proof.Machine
end

