-- ==== Sys2Proof/Safety.lean ====
section
/-! DEFINITION. What a safe state is, the invariants of `10_state.md` R28, and the terms the statements use: what an append, a
drop of the pending program and a fault leave alone. -/

namespace Sys2Proof.Machine

/-- The unit word in a cell of every reachable state is one of three (R28 item 2, `30_encoding.md` R83). -/
abbrev IsUnitWord (c : Config) (w : Nat) : Prop :=
  w = Kind.unitWord c .compute ∨ w = Kind.unitWord c .ioWait ∨ w = Kind.unitWord c .halt

/-- What holds in every reachable state (R28), together with what makes equal states equal data (log 6). -/
structure Inv (s : State) : Prop where
  /-- The parameters meet the constraints of R6. -/
  params     : s.cfg.ok
  /-- PC is a value of ADDR_W bits (R22). -/
  pc_width   : Fits s.cfg.addrW s.pc
  /-- Item 1: `LEN <= WP <= MEM_CELLS`. -/
  len_le_wp  : s.len ≤ s.wp
  wp_le_cap  : s.wp ≤ s.cfg.memCells
  /-- The store is in its canonical form. -/
  cells_wf   : Memory.wf s.cells
  /-- Item 2: every cell below WP holds a unit word. -/
  cells_unit : ∀ a, a < s.wp → ∃ w, Memory.read s.cells a = some w ∧ IsUnitWord s.cfg w
  /-- R29: a cell at or above WP has no content. -/
  cells_end  : ∀ a, s.wp ≤ a → Memory.read s.cells a = none
  /-- Item 3: committed memory that is not empty ends in a Halt. -/
  closed     : 0 < s.len → Memory.read s.cells (s.len - 1) = some (Kind.unitWord s.cfg .halt)
  /-- Item 5: IR is NONE, unit Compute or unit IoWait. -/
  ir_legal   : s.ir = noneWord s.cfg ∨ s.ir = Kind.unitWord s.cfg .compute ∨ s.ir = Kind.unitWord s.cfg .ioWait

/-- Everything of the machine's own state but WP and the pending cells is the same, with the parameters and the inputs to
come (R207: what a fault leaves alone). Committed cells are compared by reading. -/
structure SameCommitted (s t : State) : Prop where
  cfg    : t.cfg = s.cfg
  pc     : t.pc = s.pc
  ir     : t.ir = s.ir
  len    : t.len = s.len
  inputs : t.inputs = s.inputs
  cells  : ∀ a, a < s.len → Memory.read t.cells a = Memory.read s.cells a

/-- `m` cells from WP on were given the word `w`, WP moved past them, the command answered OK with DATA 0, and nothing else
changed (`40_expansion.md` R114). -/
structure Appended (w : Nat) (m : Nat) (s t : State) : Prop where
  cfg       : t.cfg = s.cfg
  pc        : t.pc = s.pc
  ir        : t.ir = s.ir
  len       : t.len = s.len
  inputs    : t.inputs = s.inputs
  trace     : t.trace = s.trace
  responses : t.responses = s.responses ++ [⟨.ok, 0⟩]
  wp        : t.wp = s.wp + m
  written   : ∀ a, s.wp ≤ a → a < s.wp + m → Memory.read t.cells a = some w
  others    : ∀ a, a < s.wp ∨ s.wp + m ≤ a → Memory.read t.cells a = Memory.read s.cells a

/-- The pending program was dropped: `WP <- LEN`, the cells from LEN on have no content, the command answered with the
status and the data given, and nothing else changed (R119, R202, R203). -/
structure PendingDropped (st : Status) (d : Nat) (s t : State) : Prop where
  cfg       : t.cfg = s.cfg
  pc        : t.pc = s.pc
  ir        : t.ir = s.ir
  len       : t.len = s.len
  inputs    : t.inputs = s.inputs
  trace     : t.trace = s.trace
  responses : t.responses = s.responses ++ [⟨st, d⟩]
  wp        : t.wp = s.len
  committed : ∀ a, a < s.len → Memory.read t.cells a = Memory.read s.cells a
  dropped   : ∀ a, s.len ≤ a → Memory.read t.cells a = none

/-- Nothing of the machine's own state differs, with the parameters: only the inputs to come and the histories of responses
and records may. -/
structure SameMachine (s t : State) : Prop where
  cfg   : t.cfg = s.cfg
  pc    : t.pc = s.pc
  ir    : t.ir = s.ir
  cells : t.cells = s.cells
  len   : t.len = s.len
  wp    : t.wp = s.wp

/-- What the output ports show fits their widths: DATA has ARG_W bits, TRACE_OP WORD_W, TRACE_PC ADDR_W (`30_encoding.md`
R85). -/
structure FitsPorts (c : Config) (o : PortsOut) : Prop where
  data : ∀ r, o.rsp = some r → Fits c.argW r.data
  op   : ∀ r, o.trace = some r → Fits c.wordW r.op
  pc   : ∀ r, o.trace = some r → Fits c.addrW r.pc

/-- The same machine with another STEP_DELAY. -/
def State.withDelay (s : State) (d : Nat) : State := { s with cfg := { s.cfg with stepDelay := d } }

end Sys2Proof.Machine
end

