-- ==== Sys2Proof/Certificates/Slice0/Obligations.lean ====
section
/-! DEFINITION. The statements for the provers, each from the numbered rules of `spec/`. -/

open Sys2Proof Sys2Proof.Machine

/-! ### Encoding -/

/-- At every width, every well-formed instruction is what the decoder reads from its own code word. -/
def Obligations.DecodeEncodeRoundTrip : Prop :=
  ∀ (c : Config) (i : Instr), i.wellFormed c = true → decode c (encode c i) = .ok i

/-- Whatever the decoder reads is well formed, and the code word is its encoding: no code word has two readings and no bit
of it is dropped. -/
def Obligations.DecodedInstructionEncodesBack : Prop :=
  ∀ (c : Config) (d : Code) (i : Instr), decode c d = .ok i → i.wellFormed c = true ∧ encode c i = d

/-- Words written out from the tables of `30_encoding.md` R82, R83 and R86, at the default widths, decode to what they stand
for. -/
def Obligations.WrittenOutWordsDecode : Prop :=
  decode Config.default (.unit 0b00_00000000000000) = .ok .compute ∧
  decode Config.default (.unit 0b01_00000000000000) = .ok .ioWait ∧
  decode Config.default (.unit 0b10_00000000000000) = .ok .halt ∧
  decode Config.default (.run 0b00_00000000000101) = .ok (.runCompute 5) ∧
  decode Config.default (.run 0b01_00000000000010) = .ok (.runIoWait 2) ∧
  decode Config.default (.run 0b10_00000000000001) = .ok (.runHalt 1) ∧
  decode Config.default (.command 0b0001_0000000000000101) = .ok (.xrRun 5) ∧
  decode Config.default (.command 0b0100_0000000000000000) = .ok (.step 0) ∧
  decode Config.default (.command 0b0101_0000000000001001) = .ok (.pcLoad 9) ∧
  decode Config.default (.command 0b0111_0000000000001010) = .ok (.fetch 10)

/-- Which code words are no instruction: a run word of kind `2'b11`, a command code 0 or 11 to 15, a cell that is not one
of the three unit words (R83, R86, R90), and a number that has more bits than its format (the model's own
rejection, log 20). -/
def Obligations.ReservedEncodingsAreRejected : Prop :=
  ∀ c : Config,
    (∀ w : Nat, w < 2 ^ c.wordW →
      (decode c (.run w) = .reject (.reservedRunKind w) ↔ 3 * 2 ^ c.repeatW ≤ w)) ∧
    (∀ (k : BitVec 4) (a : Nat),
      decode c (.command (k.toNat * 2 ^ c.argW + a % 2 ^ c.argW)) = .reject (.reservedCommand k) ↔
        k.toNat = 0 ∨ 11 ≤ k.toNat) ∧
    (∀ w : Nat, (∃ i, decode c (.unit w) = .ok i) ↔ w = 0 ∨ w = 2 ^ c.repeatW ∨ w = 2 * 2 ^ c.repeatW) ∧
    (∀ w : Nat, 2 ^ c.wordW ≤ w →
      decode c (.run w) = .reject (.tooWide w) ∧ decode c (.unit w) = .reject (.tooWide w)) ∧
    (∀ v : Nat, 2 ^ (4 + c.argW) ≤ v → decode c (.command v) = .reject (.tooWide v))

/-! ### The step -/

/-- A sample with RST low and CMD_VALID high whose command decodes is that instruction executed on the state with the
sample used up. With nothing offered, or no sample left, the machine holds its state (log 1). -/
def Obligations.StepRunsTheDecodedCommand : Prop :=
  (∀ (s : State) (p : PortsIn) (ps : List PortsIn) (i : Instr),
    s.inputs = p :: ps → p.rst = false → p.cmdValid = true →
    decode s.cfg (.command (commandWord s.cfg p.cmd p.arg)) = .ok i →
    step s = exec i { s with inputs := ps }) ∧
  (∀ (s : State) (p : PortsIn) (ps : List PortsIn),
    s.inputs = p :: ps → p.rst = false → p.cmdValid = false → step s = .next { s with inputs := ps }) ∧
  (∀ s : State, s.inputs = [] → step s = .next s)

/-- The model's own interface (log 8, log 9): after `withFetchWord` the very next step executes the instruction the table word
decodes to, a unit instruction on the state with its word in the cell at PC, any other on the state as it was. -/
def Obligations.FetchWordRunsNext : Prop :=
  ∀ (s : State) (nbits w : Nat) (i : Instr), decodeTableWordAt s.cfg nbits w = some i →
    step (s.withFetchWord nbits w) =
      exec i (match codeOfTableWord s.cfg nbits w with
        | some (.unit v) => s.placeAtPc v
        | _              => s)

/-- STEP executes the unit instruction in the committed cell at PC, and XR_RUN the run instruction that the low WORD_W bits of
its argument encode. -/
def Obligations.StepAndXrRunExecuteTheirInstruction : Prop :=
  (∀ (s : State) (arg w : Nat) (u : Instr), s.pc < s.len →
    Memory.read s.cells s.pc = some w → decode s.cfg (.unit w) = .ok u → exec (.step arg) s = exec u s) ∧
  (∀ (s : State) (arg : Nat) (r : Instr),
    decode s.cfg (.run (arg % 2 ^ s.cfg.wordW)) = .ok r → exec (.xrRun arg) s = exec r s)

/-- A reserved command code changes nothing and answers IllegalCommand with the code, wherever the code fits DATA; a pending
program is kept. -/
def Obligations.ReservedCommandIsIllegalCommand : Prop :=
  ∀ (s : State) (p : PortsIn) (ps : List PortsIn),
    s.inputs = p :: ps → p.rst = false → p.cmdValid = true → (p.cmd = 0x0#4 ∨ 0xB#4 ≤ p.cmd) →
    p.cmd.toNat < 2 ^ s.cfg.argW →
    step s = .next { s with
      inputs := ps
      responses := s.responses ++ [⟨.illegalCommand, p.cmd.toNat⟩] }

/-- Where ARG_W is 3 and the code does not fit DATA, a reserved command code still changes nothing and answers IllegalCommand,
with a DATA of ARG_W bits of which nothing more is said: the spec states no value there (log 19, DESIGN CHOICE). -/
def Obligations.ReservedCommandOnANarrowPort : Prop :=
  ∀ (s : State) (p : PortsIn) (ps : List PortsIn),
    s.inputs = p :: ps → p.rst = false → p.cmdValid = true → 0xB#4 ≤ p.cmd → 2 ^ s.cfg.argW ≤ p.cmd.toNat →
    ∃ d, d < 2 ^ s.cfg.argW ∧
      step s = .next { s with
        inputs := ps
        responses := s.responses ++ [⟨.illegalCommand, d⟩] }

/-- What reset leaves: the state after reset at any parameters and at the default ones, what RST does to any state whatever
else is on the ports, and CPU_RESET, which restores PC and IR only. NONE is kind code 3 with zeros below. After RST no cell has
content, nothing is answered and no record is emitted. -/
def Obligations.ResetValues : Prop :=
  (∀ c : Config, (State.resetAt c).pc = 0 ∧ (State.resetAt c).ir = 3 * 2 ^ c.repeatW ∧ (State.resetAt c).len = 0 ∧
    (State.resetAt c).wp = 0 ∧ ∀ a, Memory.read (State.resetAt c).cells a = none) ∧
  (State.reset = State.resetAt Config.default ∧ State.reset.ir = 0xC000) ∧
  (∀ (s : State) (p : PortsIn) (ps : List PortsIn), s.inputs = p :: ps → p.rst = true →
    step s = .next { s with
      inputs := ps, pc := 0, ir := 3 * 2 ^ s.cfg.repeatW, cells := [], len := 0, wp := 0 }) ∧
  (∀ (s : State) (arg : Nat), ∃ t, exec (.cpuReset arg) s = .next t ∧
    t.pc = 0 ∧ t.ir = 3 * 2 ^ s.cfg.repeatW ∧ t.len = s.len ∧ t.wp = s.wp ∧ t.cells = s.cells)

/-! ### The unit instructions and STEP -/

/-- `Compute`: its word, at the default width `0x0000`; the record with PC before the increment, IR latched, PC plus one. Nothing else
changes but the history of responses, which gets the OK response of the STEP that fetched it: that the bare instruction carries
that response is the model's choice (log 10). -/
def Obligations.ComputeResult : Prop :=
  encode Config.default .compute = .unit 0x0000 ∧
  ∀ s : State,
    encode s.cfg .compute = .unit (0) ∧
    exec .compute s = .next { s with
      pc := s.pc + 1
      ir := 0
      trace := s.trace ++ [⟨0, s.pc⟩]
      responses := s.responses ++ [⟨.ok, 0⟩] }

/-- `IoWait`: its word, at the default width `0x4000`; executed exactly like Compute. Nothing else
changes but the history of responses, which gets the OK response of the STEP that fetched it: that the bare instruction carries
that response is the model's choice (log 10). -/
def Obligations.IoWaitResult : Prop :=
  encode Config.default .ioWait = .unit 0x4000 ∧
  ∀ s : State,
    encode s.cfg .ioWait = .unit (2 ^ s.cfg.repeatW) ∧
    exec .ioWait s = .next { s with
      pc := s.pc + 1
      ir := 2 ^ s.cfg.repeatW
      trace := s.trace ++ [⟨2 ^ s.cfg.repeatW, s.pc⟩]
      responses := s.responses ++ [⟨.ok, 2 ^ s.cfg.repeatW⟩] }

/-- `Halt`: its word, at the default width `0x8000`; traced and stepped over like the others, IR not written. Nothing else
changes but the history of responses, which gets the OK response of the STEP that fetched it: that the bare instruction carries
that response is the model's choice (log 10). -/
def Obligations.HaltResult : Prop :=
  encode Config.default .halt = .unit 0x8000 ∧
  ∀ s : State,
    encode s.cfg .halt = .unit (2 * 2 ^ s.cfg.repeatW) ∧
    exec .halt s = .next { s with
      pc := s.pc + 1
      trace := s.trace ++ [⟨2 * 2 ^ s.cfg.repeatW, s.pc⟩]
      responses := s.responses ++ [⟨.ok, 2 * 2 ^ s.cfg.repeatW⟩] }

/-- STEP, whole: its code; with PC committed, the five actions on the word in the cell at PC; with PC at or above LEN,
OutOfRange and nothing else. -/
def Obligations.StepResult : Prop :=
  ∀ (s : State) (arg : Nat),
    encode s.cfg (.step arg) = .command (0x4 * 2 ^ s.cfg.argW + arg % 2 ^ s.cfg.argW) ∧
    (∀ w, s.pc < s.len → Memory.read s.cells s.pc = some w → IsUnitWord s.cfg w →
      exec (.step arg) s = .next { s with
        pc := s.pc + 1
        ir := if w = 2 * 2 ^ s.cfg.repeatW then s.ir else w
        trace := s.trace ++ [⟨w, s.pc⟩]
        responses := s.responses ++ [⟨.ok, w⟩] }) ∧
    (s.len ≤ s.pc →
      exec (.step arg) s = .next { s with responses := s.responses ++ [⟨.outOfRange, s.pc⟩] })

/-- In every state that meets the invariant a STEP answers once, OK or OutOfRange, and which of the two depends only on
whether PC is below LEN: no Halt stops the machine. -/
def Obligations.HaltDoesNotStopTheSequencer : Prop :=
  ∀ (s : State) (arg : Nat), Inv s → ∃ t r, exec (.step arg) s = .next t ∧ t.responses = s.responses ++ [r] ∧
    (r.status = .ok ∨ r.status = .outOfRange) ∧ (r.status = .ok ↔ s.pc < s.len) ∧
    (r.status = .ok → t.pc = s.pc + 1)

/-- On machines of the same parameters a STEP's next state, response and record are functions of PC, IR, LEN and CELL[PC]
alone; and the SEQ never steps on its own: with RST low and no command offered nothing of the machine changes. -/
def Obligations.StepDependsOnItsInputsAlone : Prop :=
  (∀ (s u t : State) (a b : Nat),
    u.cfg = s.cfg → u.pc = s.pc → u.ir = s.ir → u.len = s.len →
    Memory.read u.cells s.pc = Memory.read s.cells s.pc →
    exec (.step a) s = .next t →
    ∃ v r recs, exec (.step b) u = .next v ∧ v.pc = t.pc ∧ v.ir = t.ir ∧
      t.responses = s.responses ++ [r] ∧ v.responses = u.responses ++ [r] ∧
      t.trace = s.trace ++ recs ∧ v.trace = u.trace ++ recs) ∧
  (∀ (s : State) (p : PortsIn) (ps : List PortsIn),
    s.inputs = p :: ps → p.rst = false → p.cmdValid = false → step s = .next { s with inputs := ps })

/-- STEP_DELAY has no effect: with another delay every step answers the same, the delay apart. -/
def Obligations.StepDelayHasNoEffect : Prop :=
  ∀ (s : State) (d : Nat),
    (∀ t, step s = .next t → step (s.withDelay d) = .next (t.withDelay d)) ∧
    (∀ f, step s = .fault f → step (s.withDelay d) = .fault f)

/-! ### The run instructions and the XR commands -/

/-- The three run instructions: the word of each count that fits the field; where max(n, 1) cells fit, that many unit words
of the kind are appended and nothing else changes, every address outside the cells written reading as before; where they do
not, StoreFull and the pending program is dropped. The response is that of the XR_RUN that carries the run (log 10), and a count
that no word can hold is executed as the source would (log 11): both are the model's choice. -/
def Obligations.RunInstructionsResult : Prop :=
  ∀ (s : State) (n : Nat),
    (n ≤ s.cfg.maxRepeat →
      encode s.cfg (.runCompute n) = .run n ∧
      encode s.cfg (.runIoWait n) = .run (2 ^ s.cfg.repeatW + n) ∧
      encode s.cfg (.runHalt n) = .run (2 * 2 ^ s.cfg.repeatW + n)) ∧
    (s.wp + max n 1 ≤ s.cfg.memCells →
      (∃ t, exec (.runCompute n) s = .next t ∧ Appended 0 (max n 1) s t) ∧
      (∃ t, exec (.runIoWait n) s = .next t ∧ Appended (2 ^ s.cfg.repeatW) (max n 1) s t) ∧
      (∃ t, exec (.runHalt n) s = .next t ∧ Appended (2 * 2 ^ s.cfg.repeatW) (max n 1) s t)) ∧
    (s.cfg.memCells < s.wp + max n 1 →
      (∃ t, exec (.runCompute n) s = .next t ∧ PendingDropped .storeFull s.len s t) ∧
      (∃ t, exec (.runIoWait n) s = .next t ∧ PendingDropped .storeFull s.len s t) ∧
      (∃ t, exec (.runHalt n) s = .next t ∧ PendingDropped .storeFull s.len s t))

/-- What the last run decides at XR_END: after a Halt run that fitted, XR_END commits the pending program as it is; after a
Compute or IoWait run it appends one Halt, where that fits. -/
def Obligations.LastRunDecidesTheClosingHalt : Prop :=
  ∀ (s t : State) (n : Nat) (a : Nat), s.len ≤ s.wp → s.wp + max n 1 ≤ s.cfg.memCells →
    (exec (.runHalt n) s = .next t →
      ∃ u, exec (.xrEnd a) t = .next u ∧ u.len = t.wp ∧ u.wp = t.wp ∧ u.cells = t.cells) ∧
    (exec (.runCompute n) s = .next t ∨ exec (.runIoWait n) s = .next t → t.wp + 1 ≤ s.cfg.memCells →
      ∃ u, exec (.xrEnd a) t = .next u ∧ u.len = t.wp + 1 ∧ u.wp = u.len ∧
        Memory.read u.cells t.wp = some (2 * 2 ^ s.cfg.repeatW))

/-- XR_RUN, whole: its code; its operand is the low WORD_W bits of the argument, the kind code `w / 2^REPEAT_W` above the count
`w % 2^REPEAT_W`. A reserved kind is IllegalRun whether or not the store is full; otherwise the run is appended when it fits and
StoreFull when it does not. -/
def Obligations.XrRunResult : Prop :=
  ∀ (s : State) (arg w : Nat), w = arg % 2 ^ (2 + s.cfg.repeatW) →
    encode s.cfg (.xrRun arg) = .command (0x1 * 2 ^ s.cfg.argW + arg % 2 ^ s.cfg.argW) ∧
    (w / 2 ^ s.cfg.repeatW = 3 →
      ∃ t, exec (.xrRun arg) s = .next t ∧ PendingDropped .illegalRun w s t) ∧
    (w / 2 ^ s.cfg.repeatW ≠ 3 → s.cfg.memCells < s.wp + max (w % 2 ^ s.cfg.repeatW) 1 →
      ∃ t, exec (.xrRun arg) s = .next t ∧ PendingDropped .storeFull s.len s t) ∧
    (w / 2 ^ s.cfg.repeatW ≠ 3 → s.wp + max (w % 2 ^ s.cfg.repeatW) 1 ≤ s.cfg.memCells →
      ∃ t, exec (.xrRun arg) s = .next t ∧
        Appended (w / 2 ^ s.cfg.repeatW * 2 ^ s.cfg.repeatW) (max (w % 2 ^ s.cfg.repeatW) 1) s t)

/-- XR_END, whole: its code; a pending program that ends in a Halt is committed as it is; any other, the empty one too,
gets the closing Halt at WP and is committed; and when that Halt does not fit, the pending program is dropped. DATA is the
base of the program committed. The argument is ignored. -/
def Obligations.XrEndResult : Prop :=
  ∀ (s : State) (arg : Nat),
    encode s.cfg (.xrEnd arg) = .command (0x2 * 2 ^ s.cfg.argW + arg % 2 ^ s.cfg.argW) ∧
    (∀ w, s.len < s.wp → Memory.read s.cells (s.wp - 1) = some w → w / 2 ^ s.cfg.repeatW % 4 = 2 →
      exec (.xrEnd arg) s = .next { s with len := s.wp, responses := s.responses ++ [⟨.ok, s.len⟩] }) ∧
    ((s.len < s.wp → ∃ w, Memory.read s.cells (s.wp - 1) = some w ∧ w / 2 ^ s.cfg.repeatW % 4 ≠ 2) →
      s.wp + 1 ≤ s.cfg.memCells →
      ∃ t, exec (.xrEnd arg) s = .next t ∧ t.cfg = s.cfg ∧ t.pc = s.pc ∧ t.ir = s.ir ∧ t.inputs = s.inputs ∧
        t.trace = s.trace ∧ t.wp = s.wp + 1 ∧ t.len = t.wp ∧
        t.responses = s.responses ++ [⟨.ok, s.len⟩] ∧
        Memory.read t.cells s.wp = some (2 * 2 ^ s.cfg.repeatW) ∧
        ∀ a, a ≠ s.wp → Memory.read t.cells a = Memory.read s.cells a) ∧
    ((s.len < s.wp → ∃ w, Memory.read s.cells (s.wp - 1) = some w ∧ w / 2 ^ s.cfg.repeatW % 4 ≠ 2) →
      s.cfg.memCells < s.wp + 1 →
      ∃ t, exec (.xrEnd arg) s = .next t ∧ PendingDropped .storeFull s.len s t)

/-- XR_ABORT, whole: its code; WP goes back to LEN and nothing else changes, but that the dropped cells have no content. -/
def Obligations.XrAbortResult : Prop :=
  ∀ (s : State) (arg : Nat),
    encode s.cfg (.xrAbort arg) = .command (0x3 * 2 ^ s.cfg.argW + arg % 2 ^ s.cfg.argW) ∧
    ∃ t, exec (.xrAbort arg) s = .next t ∧ PendingDropped .ok 0 s t

/-- No XR command and no run instruction touches PC, IR, LEN (but XR_END), the trace or a committed cell. -/
def Obligations.RouterLeavesSequencerAlone : Prop :=
  ∀ (s t : State) (i : Instr), s.len ≤ s.wp →
    ((∃ n, i = .runCompute n ∨ i = .runIoWait n ∨ i = .runHalt n) ∨
      (∃ w, i = .xrRun w ∨ i = .xrEnd w ∨ i = .xrAbort w)) →
    exec i s = .next t →
    t.pc = s.pc ∧ t.ir = s.ir ∧ t.trace = s.trace ∧ t.cfg = s.cfg ∧ t.inputs = s.inputs ∧
      ((∀ w, i ≠ .xrEnd w) → t.len = s.len) ∧
      ∀ a, a < s.len → Memory.read t.cells a = Memory.read s.cells a

/-! ### PC_LOAD, CPU_RESET and the read commands -/

/-- PC_LOAD, whole: its code; PC takes the low ADDR_W bits of the argument, whatever LEN is, and nothing else changes. -/
def Obligations.PcLoadResult : Prop :=
  ∀ (s : State) (arg : Nat),
    encode s.cfg (.pcLoad arg) = .command (0x5 * 2 ^ s.cfg.argW + arg % 2 ^ s.cfg.argW) ∧
    exec (.pcLoad arg) s =
      .next { s with pc := arg % 2 ^ s.cfg.addrW, responses := s.responses ++ [⟨.ok, 0⟩] }

/-- CPU_RESET, whole: its code; PC is 0 and IR is NONE, and the store, LEN and WP keep their values. -/
def Obligations.CpuResetResult : Prop :=
  ∀ (s : State) (arg : Nat),
    encode s.cfg (.cpuReset arg) = .command (0x6 * 2 ^ s.cfg.argW + arg % 2 ^ s.cfg.argW) ∧
    exec (.cpuReset arg) s =
      .next { s with pc := 0, ir := 3 * 2 ^ s.cfg.repeatW, responses := s.responses ++ [⟨.ok, 0⟩] }

/-- FETCH, whole: its code; the word of the committed cell that the low ADDR_W bits of the argument address, or OutOfRange with
the address. No state of the machine changes and no record is emitted. -/
def Obligations.FetchResult : Prop :=
  ∀ (s : State) (arg a : Nat), a = arg % 2 ^ s.cfg.addrW →
    encode s.cfg (.fetch arg) = .command (0x7 * 2 ^ s.cfg.argW + arg % 2 ^ s.cfg.argW) ∧
    (∀ w, a < s.len → Memory.read s.cells a = some w → IsUnitWord s.cfg w →
      exec (.fetch arg) s = .next { s with responses := s.responses ++ [⟨.ok, w⟩] }) ∧
    (s.len ≤ a →
      exec (.fetch arg) s = .next { s with responses := s.responses ++ [⟨.outOfRange, a⟩] })

/-- RD_PC, RD_IR and RD_LEN: their codes; each answers the register it names, IR also where it holds the sentinel, and changes
nothing. In every state that meets the invariant IR is the sentinel or the word of Compute or of IoWait. -/
def Obligations.ReadCommandsAnswerTheirRegister : Prop :=
  ∀ (s : State) (arg : Nat),
    (encode s.cfg (.rdPc arg) = .command (0x8 * 2 ^ s.cfg.argW + arg % 2 ^ s.cfg.argW) ∧
      exec (.rdPc arg) s = .next { s with responses := s.responses ++ [⟨.ok, s.pc⟩] }) ∧
    (encode s.cfg (.rdIr arg) = .command (0x9 * 2 ^ s.cfg.argW + arg % 2 ^ s.cfg.argW) ∧
      exec (.rdIr arg) s = .next { s with responses := s.responses ++ [⟨.ok, s.ir⟩] }) ∧
    (Inv s → s.ir = 3 * 2 ^ s.cfg.repeatW ∨ s.ir = 0 ∨ s.ir = 2 ^ s.cfg.repeatW) ∧
    (encode s.cfg (.rdLen arg) = .command (0xA * 2 ^ s.cfg.argW + arg % 2 ^ s.cfg.argW) ∧
      exec (.rdLen arg) s = .next { s with responses := s.responses ++ [⟨.ok, s.len⟩] })

/-- The commands whose argument is ignored answer the same for every argument; XR_RUN looks at its low WORD_W bits alone,
PC_LOAD and FETCH at their low ADDR_W bits. The last clause, that a step looks at no more than the low ARG_W bits of a sample's
number, is the model's own choice: the spec's port has no bits above ARG_W (log 20, DESIGN CHOICE). -/
def Obligations.IgnoredArgumentHasNoEffect : Prop :=
  (∀ (s : State) (a b : Nat),
    exec (.xrEnd a) s = exec (.xrEnd b) s ∧ exec (.xrAbort a) s = exec (.xrAbort b) s ∧
    exec (.step a) s = exec (.step b) s ∧ exec (.cpuReset a) s = exec (.cpuReset b) s ∧
    exec (.rdPc a) s = exec (.rdPc b) s ∧ exec (.rdIr a) s = exec (.rdIr b) s ∧
    exec (.rdLen a) s = exec (.rdLen b) s ∧
    (a % 2 ^ s.cfg.wordW = b % 2 ^ s.cfg.wordW → exec (.xrRun a) s = exec (.xrRun b) s) ∧
    (a % 2 ^ s.cfg.addrW = b % 2 ^ s.cfg.addrW →
      exec (.pcLoad a) s = exec (.pcLoad b) s ∧ exec (.fetch a) s = exec (.fetch b) s)) ∧
  (∀ (s : State) (rst valid : Bool) (cmd : BitVec 4) (a b : Nat) (ps : List PortsIn),
    a % 2 ^ s.cfg.argW = b % 2 ^ s.cfg.argW →
    step { s with inputs := ⟨rst, valid, cmd, a⟩ :: ps } = step { s with inputs := ⟨rst, valid, cmd, b⟩ :: ps })

/-! ### The whole machine -/

/-- The only writers of each element: where an instruction changes an element, the instruction is one of those the rule
lists for it. A committed cell has no writer; an IllegalCommand writes nothing. -/
def Obligations.OnlyTheListedWriters : Prop :=
  (∀ (i : Instr) (s t : State), s.len ≤ s.wp → exec i s = .next t →
    (t.pc ≠ s.pc →
      ((i = .compute ∨ i = .ioWait ∨ i = .halt ∨ (s.pc < s.len ∧ ∃ a, i = .step a)) ∧ t.pc = s.pc + 1) ∨
        ∃ a, i = .pcLoad a ∨ i = .cpuReset a) ∧
    (t.ir ≠ s.ir →
      i = .compute ∨ i = .ioWait ∨ (∃ a, i = .cpuReset a) ∨
        ∃ a w, i = .step a ∧ s.pc < s.len ∧
          Memory.read s.cells s.pc = some w ∧ isHalt s.cfg w = false) ∧
    (∀ a, a < s.len → Memory.read t.cells a = Memory.read s.cells a) ∧
    (∀ a, s.len ≤ a → Memory.read t.cells a ≠ Memory.read s.cells a → Memory.read t.cells a ≠ none →
      (∃ n, i = .runCompute n ∨ i = .runIoWait n ∨ i = .runHalt n) ∨ ∃ w, i = .xrRun w ∨ i = .xrEnd w) ∧
    (t.len ≠ s.len → ∃ a, i = .xrEnd a) ∧
    (t.wp ≠ s.wp → (∃ n, i = .runCompute n ∨ i = .runIoWait n ∨ i = .runHalt n) ∨
      ∃ w, i = .xrRun w ∨ i = .xrEnd w ∨ i = .xrAbort w) ∧
    ((∃ a, i = .fetch a ∨ i = .rdPc a ∨ i = .rdIr a ∨ i = .rdLen a) → SameMachine s t)) ∧
  (∀ (s t : State) (p : PortsIn) (ps : List PortsIn), s.inputs = p :: ps → p.rst = false → p.cmdValid = true →
    (p.cmd = 0x0#4 ∨ 0xB#4 ≤ p.cmd) → step s = .next t → SameMachine s t)

/-- Every command taken ends with one response, and its STATUS and DATA are those the table gives: the four faults come
from the commands listed for them, with their information word. -/
def Obligations.EveryCommandAnswersOnce : Prop :=
  (Status.code .ok = 0x0#4 ∧ Status.code .outOfRange = 0x1#4 ∧ Status.code .storeFull = 0x2#4 ∧
    Status.code .illegalRun = 0x3#4 ∧ Status.code .illegalCommand = 0x4#4) ∧
  (∀ (s t : State) (p : PortsIn) (ps : List PortsIn), s.inputs = p :: ps → p.rst = false → p.cmdValid = true →
    step s = .next t →
    ∃ r, t.responses = s.responses ++ [r] ∧
      (r.status = .outOfRange →
        (p.cmd = 0x4#4 ∧ r.data = s.pc) ∨ (p.cmd = 0x7#4 ∧ r.data = p.arg % 2 ^ s.cfg.addrW)) ∧
      (r.status = .storeFull → (p.cmd = 0x1#4 ∨ p.cmd = 0x2#4) ∧ r.data = s.len) ∧
      (r.status = .illegalRun → p.cmd = 0x1#4 ∧ r.data = p.arg % 2 ^ s.cfg.wordW) ∧
      (r.status = .illegalCommand ↔ p.cmd = 0x0#4 ∨ 0xB#4 ≤ p.cmd) ∧
      (r.status = .illegalCommand → r.data < 2 ^ s.cfg.argW ∧ (p.cmd.toNat < 2 ^ s.cfg.argW → r.data = p.cmd.toNat)) ∧
      (r.status = .ok →
        (p.cmd = 0x1#4 ∨ p.cmd = 0x3#4 ∨ p.cmd = 0x5#4 ∨ p.cmd = 0x6#4 → r.data = 0) ∧
        (p.cmd = 0x2#4 → r.data = s.len) ∧
        (p.cmd = 0x4#4 → Memory.read s.cells s.pc = some r.data) ∧
        (p.cmd = 0x7#4 → Memory.read s.cells (p.arg % 2 ^ s.cfg.addrW) = some r.data) ∧
        (p.cmd = 0x8#4 → r.data = s.pc) ∧ (p.cmd = 0x9#4 → r.data = s.ir) ∧ (p.cmd = 0xA#4 → r.data = s.len)))

/-- A successful STEP puts one record on the trace port, the fetched word and PC before the increment; a faulting STEP and
every other command put none. -/
def Obligations.OnlySuccessfulStepsAreTraced : Prop :=
  ∀ (s t : State) (p : PortsIn) (ps : List PortsIn), s.inputs = p :: ps → step s = .next t →
    (p.rst = false → p.cmdValid = true → p.cmd = 0x4#4 → s.pc < s.len →
      ∃ w, Memory.read s.cells s.pc = some w ∧ t.trace = s.trace ++ [⟨w, s.pc⟩]) ∧
    (p.rst = true ∨ p.cmdValid = false ∨ p.cmd ≠ 0x4#4 ∨ s.len ≤ s.pc → t.trace = s.trace)

/-- The output ports derived from the histories show exactly what a step adds to them (log 4). -/
def Obligations.PortsShowWhatAStepPutsOut : Prop :=
  ∀ s t : State, step s = .next t →
    t.responses = s.responses ++ (portsOut s t).rsp.toList ∧ t.trace = s.trace ++ (portsOut s t).trace.toList

/-- A command that ends in a fault has no effect on PC, IR, LEN or a committed cell and emits no record; only StoreFull and
IllegalRun change WP, which goes back to LEN; the others leave the pending program too. -/
def Obligations.FaultsChangeNothingButPending : Prop :=
  ∀ (s t : State) (p : PortsIn) (ps : List PortsIn) (r : Response),
    s.inputs = p :: ps → p.rst = false → p.cmdValid = true → step s = .next t →
    t.responses = s.responses ++ [r] → r.status ≠ .ok →
    SameCommitted { s with inputs := ps } t ∧ t.trace = s.trace ∧
      (r.status = .storeFull ∨ r.status = .illegalRun → t.wp = s.len) ∧
      (r.status = .outOfRange ∨ r.status = .illegalCommand → t.wp = s.wp ∧ t.cells = s.cells)

/-- Pending cells and WP cannot be observed by the SEQ's commands or the read commands: change them in any way and every
one of these does and answers the same. -/
def Obligations.PendingProgramIsInvisible : Prop :=
  ∀ (s : State) (m : Memory) (wp' : Nat) (i : Instr),
    (∀ a, a < s.len → Memory.read m a = Memory.read s.cells a) →
    (i = .compute ∨ i = .ioWait ∨ i = .halt ∨
      ∃ a, i = .step a ∨ i = .pcLoad a ∨ i = .cpuReset a ∨ i = .fetch a ∨ i = .rdPc a ∨ i = .rdIr a ∨ i = .rdLen a) →
    ∀ t, exec i s = .next t → exec i { s with cells := m, wp := wp' } = .next { t with cells := m, wp := wp' }

/-- A commit is seen by the very next fetch: after an XR_END that answered OK, a FETCH of any address of the program
committed answers its word, which for a cell that was pending is the pending word and for the closing cell a Halt. -/
def Obligations.CommitIsSeenByTheNextFetch : Prop :=
  ∀ (s t : State) (arg : Nat), Inv s → exec (.xrEnd arg) s = .next t → t.responses = s.responses ++ [⟨.ok, s.len⟩] →
    s.len < t.len ∧
    ∀ a : Nat, s.len ≤ a → a < t.len →
      ∃ w, exec (.fetch a) t = .next { t with responses := t.responses ++ [⟨.ok, w⟩] } ∧
        (a < s.wp → Memory.read s.cells a = some w) ∧
        (a + 1 = t.len → w = 2 * 2 ^ s.cfg.repeatW)

/-- A STEP that is out of range changes nothing, faults again when repeated, and succeeds once a commit has put PC in
range. -/
def Obligations.OutOfRangeIsCuredByACommit : Prop :=
  ∀ (s : State) (a b : Nat), Inv s → s.len ≤ s.pc →
    ∃ t, exec (.step a) s = .next t ∧ SameMachine s t ∧
      (∃ u, exec (.step a) t = .next u ∧ SameMachine s u ∧
        u.responses = s.responses ++ [⟨.outOfRange, s.pc⟩, ⟨.outOfRange, s.pc⟩]) ∧
      ∀ c, exec (.xrEnd b) t = .next c → s.pc < c.len →
        ∃ v w, exec (.step a) c = .next v ∧ v.responses = c.responses ++ [⟨.ok, w⟩] ∧ v.pc = s.pc + 1

/-! ### Invariants -/

/-- The invariant holds after reset, at the default parameters and at any that meet the constraints of R6. -/
def Obligations.ResetMeetsInvariant : Prop :=
  Inv State.reset ∧ ∀ c : Config, c.ok → Inv (State.resetAt c)

/-- From every state that meets the invariant a step leads to one that meets it. -/
def Obligations.StepKeepsInvariant : Prop := ∀ s t : State, Inv s → step s = .next t → Inv t

/-- From every state that meets the invariant a step leads to a next state: no fault of the model and no refusal. -/
def Obligations.StepNeverStops : Prop := ∀ s : State, Inv s → ∃ t, step s = .next t

/-- Every step keeps the store's canonical form, from any state that has it, reached or not (the model's own, log 6). -/
def Obligations.StepKeepsCanonicalStore : Prop :=
  ∀ s t : State, Memory.wf s.cells → step s = .next t → Memory.wf t.cells

/-- What a step shows on the output ports fits them: DATA has ARG_W bits, TRACE_OP WORD_W and TRACE_PC ADDR_W. -/
def Obligations.OutputsFitTheirPorts : Prop :=
  ∀ s t : State, Inv s → step s = .next t → FitsPorts s.cfg (portsOut s t)

/-- Unless RST is high a step never lowers LEN and never changes a committed cell. -/
def Obligations.CommittedCellsNeverChange : Prop :=
  ∀ s t : State, Inv s → (∀ p ps, s.inputs = p :: ps → p.rst = false) → step s = .next t →
    s.len ≤ t.len ∧ ∀ a, a < s.len → Memory.read t.cells a = Memory.read s.cells a

/-! ### The source's contracts -/

/-- `isHalt` looks at the kind only, in a run and in the word of a run whatever its count. -/
def Obligations.IsHaltLooksAtTheKindOnly : Prop :=
  ∀ c : Config,
    (∀ r : Run, (r.isHalt = true ↔ r.kind = .halt) ∧ isHalt c (r.word c) = r.isHalt) ∧
    ∀ w : Nat, isHalt c w = true ↔ w / 2 ^ c.repeatW % 4 = 2

/-- `expand` gives exactly max(N, 1) unit instructions of the run's kind, and applied to a unit instruction it gives that
one back. -/
def Obligations.ExpandGivesMaxCountUnits : Prop :=
  ∀ r : Run, (expand r).length = max r.rep 1 ∧ (∀ u ∈ expand r, u = ⟨r.kind, 0⟩) ∧
    ∀ k : Kind, expand ⟨k, 0⟩ = [⟨k, 0⟩]

/-- `construct` is the expansions in order with at most one Halt appended, and its tape is never empty and ends in a
Halt. -/
def Obligations.ConstructClosesTheTape : Prop :=
  ∀ rs : List Run,
    (∃ u, (construct rs).getLast? = some u ∧ u.isHalt = true) ∧
    ((∃ u, (rs.flatMap expand).getLast? = some u ∧ u.isHalt = true) → construct rs = rs.flatMap expand) ∧
    ((∀ u, (rs.flatMap expand).getLast? = some u → u.isHalt = false) →
      construct rs = rs.flatMap expand ++ [⟨.halt, 0⟩])

/-- The tape's length is the sum of max(Ni, 1), plus one unless the last run is a Halt. -/
def Obligations.TapeLengthIsTheSum : Prop :=
  ∀ rs : List Run,
    ((∃ r, rs.getLast? = some r ∧ r.kind = .halt) →
      (construct rs).length = (rs.map fun r => max r.rep 1).sum) ∧
    ((∀ r, rs.getLast? = some r → r.kind ≠ .halt) →
      (construct rs).length = (rs.map fun r => max r.rep 1).sum + 1)

/-- Splitting a run whose count is too large keeps its tape, and every part fits the repeat field. -/
def Obligations.SplitRunsKeepTheTape : Prop :=
  ∀ (c : Config) (r : Run), 1 ≤ c.repeatW →
    (r.split c).flatMap expand = expand r ∧ ∀ p ∈ r.split c, p.rep ≤ c.maxRepeat ∧ p.kind = r.kind

/-! ### Whole loads and runs -/

/-- LOAD of a program that fits is the source's load of construct: the tape is appended to committed memory at its old
length, nothing is pending, and the SEQ is where it was. -/
def Obligations.LoadAppendsTheConstructedTape : Prop :=
  ∀ (s : State) (rs : List Run), Inv s → (∀ r ∈ rs, r.rep ≤ s.cfg.maxRepeat) →
    s.len + (construct rs).length ≤ s.cfg.memCells →
    ∃ t, load (rs.map (Run.word s.cfg)) s = .next t ∧ t.mem = s.mem ++ (construct rs).map (Run.word s.cfg) ∧
      t.len = s.len + (construct rs).length ∧ t.wp = t.len ∧ t.pc = s.pc ∧ t.ir = s.ir ∧
      t.trace = s.trace ∧ t.cfg = s.cfg ∧ t.inputs = s.inputs ∧ t.lastResponse = some ⟨.ok, s.len⟩

/-- LOAD is all or nothing: it always comes to an end; when its last response is not OK, committed memory is as it was and
nothing is pending; and it is OK exactly when the words encode runs whose tape fits. -/
def Obligations.LoadIsAllOrNothing : Prop :=
  ∀ (s : State) (ws : List Nat), Inv s → ∃ t, load ws s = .next t ∧ Inv t ∧
    t.pc = s.pc ∧ t.ir = s.ir ∧ t.trace = s.trace ∧
    (t.lastOk = false → t.mem = s.mem ∧ t.len = s.len ∧ t.wp = t.len) ∧
    (t.lastOk = true ↔ ∃ rs : List Run, rs.map (Run.word s.cfg) = ws.map (· % 2 ^ s.cfg.wordW) ∧ (∀ r ∈ rs, r.rep ≤ s.cfg.maxRepeat) ∧
      s.len + (construct rs).length ≤ s.cfg.memCells)

/-- `n` STEPs in committed memory all succeed, emit the records of the cells walked over, and leave PC `n` further and IR
at the last word among them that is no Halt. -/
def Obligations.StepsWalkTheStore : Prop :=
  ∀ (n : Nat) (s : State), Inv s → s.pc + n ≤ s.len →
    ∃ t, steps n s = .next t ∧ SameMachine { s with pc := t.pc, ir := t.ir } t ∧
      t.pc = s.pc + n ∧
      t.ir = irAfter s.cfg s.ir (Memory.slice s.cells s.pc n) ∧
      t.trace = s.trace ++ recordsOf s.pc (Memory.slice s.cells s.pc n) ∧
      t.responses = s.responses ++ ((Memory.slice s.cells s.pc n).map fun w => ⟨.ok, w⟩) ∧
      t.inputs = s.inputs

/-- A run-to-halt started in range ends at the first Halt at or after PC with that Halt stepped over; started out of range
it changes nothing and answers OutOfRange. The rule's loop is bounded in the model by the steps it can take (log 13, DEDUCED). -/
def Obligations.RunEndsAtTheFirstHalt : Prop :=
  ∀ s : State, Inv s →
    (s.pc < s.len →
      ∃ t h, run s = .next t ∧ s.pc ≤ h ∧ h < s.len ∧
        Memory.read s.cells h = some (2 * 2 ^ s.cfg.repeatW) ∧
        (∀ a, s.pc ≤ a → a < h → Memory.read s.cells a ≠ some (2 * 2 ^ s.cfg.repeatW)) ∧
        t.pc = h + 1 ∧
        t.ir = irAfter s.cfg s.ir (Memory.slice s.cells s.pc (h - s.pc)) ∧
        t.trace = s.trace ++ recordsOf s.pc (Memory.slice s.cells s.pc (h - s.pc + 1)) ∧
        t.cfg = s.cfg ∧ t.cells = s.cells ∧ t.len = s.len ∧ t.wp = s.wp ∧ t.inputs = s.inputs ∧ t.lastResponse = some ⟨.ok, 2 * 2 ^ s.cfg.repeatW⟩) ∧
    (s.len ≤ s.pc →
      ∃ t, run s = .next t ∧ SameMachine s t ∧ t.trace = s.trace ∧ t.inputs = s.inputs ∧
        t.responses = s.responses ++ [⟨.outOfRange, s.pc⟩])

/-- DUMP lists the committed cells in ascending address order, one entry for each, and changes no state. -/
def Obligations.DumpListsCommittedMemory : Prop :=
  ∀ s : State, Inv s → ∃ t l, dump s = .next (l, t) ∧ SameMachine s t ∧ t.trace = s.trace ∧
    l = s.memoryDump ∧ l.map Prod.fst = List.range s.len
end

