-- ==== Sys2Proof/Laws/Decode.lean ====
section
/-! SUPPORT. The fields of the words the encoder makes, and what the decoder reads from them. -/

namespace Sys2Proof

/-! ### Widths -/

theorem Config.two_pow_repeatW_pos (c : Config) : 0 < 2 ^ c.repeatW := Nat.two_pow_pos _

/-- A count fits the repeat field exactly when it is at most the largest one (R82). -/
theorem Config.le_maxRepeat_iff {c : Config} {n : Nat} : n ≤ c.maxRepeat ↔ n < 2 ^ c.repeatW := by
  have := c.two_pow_repeatW_pos
  simp only [maxRepeat]; omega

/-- A word has two bits more than its repeat field (R6). -/
theorem Config.two_pow_wordW (c : Config) : 2 ^ c.wordW = 4 * 2 ^ c.repeatW := by
  rw [wordW, Nat.pow_add]

/-- A word fits the argument port (R6). -/
theorem Config.two_pow_wordW_le (c : Config) : 2 ^ c.wordW ≤ 2 ^ c.argW :=
  Nat.pow_le_pow_right (by decide) (Nat.le_max_left _ _)

/-- An address fits the argument port (R6). -/
theorem Config.two_pow_addrW_le (c : Config) : 2 ^ c.addrW ≤ 2 ^ c.argW :=
  Nat.pow_le_pow_right (by decide) (Nat.le_max_right _ _)

/-! ### The fields of a word -/

theorem kindField_fieldsWord (c : Config) (k : BitVec 2) (n : Nat) : kindField c (fieldsWord c k n) = k := by
  have hp := c.two_pow_repeatW_pos
  have : (k.toNat * 2 ^ c.repeatW + n % 2 ^ c.repeatW) / 2 ^ c.repeatW = k.toNat := by
    rw [Nat.add_comm, Nat.add_mul_div_right _ _ hp, Nat.div_eq_of_lt (Nat.mod_lt _ hp), Nat.zero_add]
  rw [kindField, fieldsWord, this, BitVec.ofNat_toNat]
  exact BitVec.setWidth_eq k

theorem repField_fieldsWord (c : Config) (k : BitVec 2) (n : Nat) :
    repField c (fieldsWord c k n) = n % 2 ^ c.repeatW := by
  rw [repField, fieldsWord, Nat.add_comm, Nat.add_mul_mod_self_right, Nat.mod_mod]

/-- The word of two fields has WORD_W bits (R82). -/
theorem fieldsWord_lt (c : Config) (k : BitVec 2) (n : Nat) : fieldsWord c k n < 2 ^ c.wordW := by
  have hp := Nat.mod_lt n c.two_pow_repeatW_pos
  have hk : k.toNat ≤ 3 := by have := k.isLt; omega
  have := Nat.mul_le_mul_right (2 ^ c.repeatW) hk
  rw [c.two_pow_wordW, fieldsWord]
  generalize 2 ^ c.repeatW = m at *
  omega

/-- A word is its kind code above its repeat field (R82). -/
theorem fieldsWord_fields {c : Config} {w : Nat} (h : w < 2 ^ c.wordW) :
    fieldsWord c (kindField c w) (repField c w) = w := by
  have hp := c.two_pow_repeatW_pos
  have h4 : w / 2 ^ c.repeatW < 4 := by
    rw [Nat.div_lt_iff_lt_mul hp, ← c.two_pow_wordW]; exact h
  rw [fieldsWord, kindField, repField, BitVec.toNat_ofNat, Nat.mod_eq_of_lt h4, Nat.mod_mod, Nat.mul_comm]
  exact Nat.div_add_mod w (2 ^ c.repeatW)

@[simp] theorem kindField_runWord (c : Config) (k : Kind) (n : Nat) : kindField c (runWord c k n) = k.code :=
  kindField_fieldsWord c k.code n

@[simp] theorem repField_runWord (c : Config) (k : Kind) (n : Nat) :
    repField c (runWord c k n) = n % 2 ^ c.repeatW :=
  repField_fieldsWord c k.code n

theorem runWord_lt (c : Config) (k : Kind) (n : Nat) : runWord c k n < 2 ^ c.wordW := fieldsWord_lt c k.code n

theorem unitWord_lt (c : Config) (k : Kind) : k.unitWord c < 2 ^ c.wordW := runWord_lt c k 0

/-- The unit word is the kind code with zeros below (R83). -/
theorem unitWord_eq (c : Config) (k : Kind) : k.unitWord c = k.code.toNat * 2 ^ c.repeatW := by
  simp [Kind.unitWord, runWord, fieldsWord]

theorem unitWord_compute (c : Config) : Kind.unitWord c .compute = 0 := by simp [unitWord_eq, Kind.code]

theorem unitWord_ioWait (c : Config) : Kind.unitWord c .ioWait = 2 ^ c.repeatW := by simp [unitWord_eq, Kind.code]

theorem unitWord_halt (c : Config) : Kind.unitWord c .halt = 2 * 2 ^ c.repeatW := by simp [unitWord_eq, Kind.code]

/-- The kind code as a number (R81). -/
theorem kindField_eq_iff {c : Config} {w : Nat} {k : BitVec 2} :
    kindField c w = k ↔ w / 2 ^ c.repeatW % 4 = k.toNat := by
  rw [← BitVec.toNat_inj, kindField, BitVec.toNat_ofNat]

/-- The sentinel is kind code 3 with zeros below (R84). -/
theorem noneWord_eq (c : Config) : noneWord c = 3 * 2 ^ c.repeatW := by
  simp [noneWord, fieldsWord]

/-! ### What a word encodes -/

@[simp] theorem kindOfCode_code (k : Kind) : kindOfCode k.code = some k := by cases k <;> rfl

/-- A kind code that stands for a kind is that kind's code (R81). -/
theorem kindOfCode_eq_some {b : BitVec 2} {k : Kind} (h : kindOfCode b = some k) : b = k.code := by
  simp only [kindOfCode] at h
  split at h
  · cases h; assumption
  · split at h
    · cases h; assumption
    · split at h
      · cases h; assumption
      · cases h

/-- The reserved code is the only one that stands for no kind (R81). -/
theorem kindOfCode_eq_none {b : BitVec 2} : kindOfCode b = none ↔ b = 0b11#2 := by
  revert b; decide

theorem runOfWord_runWord (c : Config) (k : Kind) (n : Nat) :
    runOfWord c (runWord c k n) = some (k, n % 2 ^ c.repeatW) := by
  simp [runOfWord]

@[simp] theorem unitOfWord_unitWord (c : Config) (k : Kind) : unitOfWord c (k.unitWord c) = some k := by
  simp [unitOfWord, Kind.unitWord]

/-- A word that encodes a unit instruction is that instruction's word (R83). -/
theorem unitOfWord_eq_some {c : Config} {w : Nat} {k : Kind} (h : unitOfWord c w = some k) : w = k.unitWord c := by
  simp only [unitOfWord] at h
  split at h
  · split at h
    · rename_i hw; cases h; exact hw
    · cases h
  · cases h

/-- The run a number's low bits encode is its kind code's kind with its repeat field as the count (R82). -/
theorem runOfWord_fields {c : Config} {w : Nat} {k : Kind} {n : Nat} (h : runOfWord c w = some (k, n)) :
    kindField c w = k.code ∧ repField c w = n := by
  simp only [runOfWord] at h
  split at h
  · rename_i hk
    simp only [Option.some.injEq, Prod.mk.injEq] at h
    exact ⟨h.1 ▸ kindOfCode_eq_some hk, h.2⟩
  · cases h

/-- The run a word encodes has a count that fits, and the word is its word (R82). -/
theorem runOfWord_eq_some {c : Config} {w : Nat} (hw : w < 2 ^ c.wordW) {k : Kind} {n : Nat}
    (h : runOfWord c w = some (k, n)) : n ≤ c.maxRepeat ∧ w = runWord c k n := by
  obtain ⟨hk, hn⟩ := runOfWord_fields h
  constructor
  · rw [Config.le_maxRepeat_iff, ← hn]; exact Nat.mod_lt _ c.two_pow_repeatW_pos
  · rw [runWord, ← hk, ← hn, fieldsWord_fields hw]

/-- A word encodes no run exactly when its kind code is the reserved one (R90). -/
theorem runOfWord_eq_none {c : Config} {w : Nat} : runOfWord c w = none ↔ kindField c w = 0b11#2 := by
  rw [← kindOfCode_eq_none, runOfWord]
  split <;> simp_all

@[simp] theorem isHalt_runWord (c : Config) (k : Kind) (n : Nat) : isHalt c (runWord c k n) = (k == .halt) := by
  rw [isHalt, kindField_runWord]
  cases k <;> rfl

@[simp] theorem isHalt_unitWord (c : Config) (k : Kind) : isHalt c (k.unitWord c) = (k == .halt) := isHalt_runWord c k 0

theorem unitWord_inj {c : Config} {k k' : Kind} (h : k.unitWord c = k'.unitWord c) : k = k' := by
  have := congrArg (unitOfWord c) h
  simpa using this

theorem unitWord_inj_iff {c : Config} {k k' : Kind} : k.unitWord c = k'.unitWord c ↔ k = k' :=
  ⟨unitWord_inj, fun h => h ▸ rfl⟩

theorem noneWord_ne_unitWord (c : Config) (k : Kind) : noneWord c ≠ k.unitWord c := by
  intro h
  have := congrArg (kindField c) h
  rw [noneWord, Kind.unitWord, kindField_fieldsWord, kindField_runWord] at this
  cases k <;> cases this

/-! ### Commands -/

@[simp] theorem cmdField_commandWord (c : Config) (cmd : BitVec 4) (a : Nat) : cmdField c (commandWord c cmd a) = cmd := by
  have hp := Nat.two_pow_pos c.argW
  have : (cmd.toNat * 2 ^ c.argW + a % 2 ^ c.argW) / 2 ^ c.argW = cmd.toNat := by
    rw [Nat.add_comm, Nat.add_mul_div_right _ _ hp, Nat.div_eq_of_lt (Nat.mod_lt _ hp), Nat.zero_add]
  rw [cmdField, commandWord, this, BitVec.ofNat_toNat]
  exact BitVec.setWidth_eq cmd

@[simp] theorem argField_commandWord (c : Config) (cmd : BitVec 4) (a : Nat) :
    argField c (commandWord c cmd a) = a % 2 ^ c.argW := by
  rw [argField, commandWord, Nat.add_comm, Nat.add_mul_mod_self_right, Nat.mod_mod]

theorem commandWord_lt (c : Config) (cmd : BitVec 4) (a : Nat) : commandWord c cmd a < 2 ^ (4 + c.argW) := by
  have hp := Nat.mod_lt a (Nat.two_pow_pos c.argW)
  have hk : cmd.toNat ≤ 15 := by have := cmd.isLt; omega
  have := Nat.mul_le_mul_right (2 ^ c.argW) hk
  rw [commandWord, Nat.pow_add]
  generalize 2 ^ c.argW = m at *
  omega

/-- A command word is its code above its argument (R95). -/
theorem commandWord_fields {c : Config} {v : Nat} (h : v < 2 ^ (4 + c.argW)) :
    commandWord c (cmdField c v) (argField c v) = v := by
  have hp := Nat.two_pow_pos c.argW
  have h16 : v / 2 ^ c.argW < 16 := by
    rw [Nat.div_lt_iff_lt_mul hp]; rw [Nat.pow_add] at h; exact h
  rw [commandWord, cmdField, argField, BitVec.toNat_ofNat, Nat.mod_eq_of_lt h16, Nat.mod_mod, Nat.mul_comm]
  exact Nat.div_add_mod v (2 ^ c.argW)

/-- A command on the port decodes by its code and the ARG_W bits of its argument alone (R95). -/
theorem decode_command (c : Config) (cmd : BitVec 4) (a : Nat) :
    decode c (.command (commandWord c cmd a)) = decodeCommand cmd (a % 2 ^ c.argW) := by
  simp only [decode, commandWord_lt, if_true, cmdField_commandWord, argField_commandWord]

end Sys2Proof
end

