-- ==== Sys2Proof/Laws/Memory.lean ====
section
/-! SUPPORT. The laws of the store: read after write, and the canonical form kept by every operation. -/

namespace Sys2Proof.Machine

@[simp] theorem Memory.read_nil (a : Nat) : Memory.read [] a = none := rfl

theorem Memory.read_cons (b : Nat) (v : Nat) (m : Memory) (a : Nat) :
    Memory.read ((b, v) :: m) a = if a = b then some v else Memory.read m a := rfl

/-- An address below every listed one has no content. -/
theorem Memory.read_of_lt {m : Memory} {a : Nat} (h : ∀ c ∈ m, a < c.1) : Memory.read m a = none := by
  induction m with
  | nil => rfl
  | cons c m ih =>
    obtain ⟨b, v⟩ := c
    have hb : a < b := h (b, v) (by simp)
    rw [Memory.read_cons, if_neg (by omega)]
    exact ih fun c hc => h c (by simp [hc])

theorem Memory.read_write_self (m : Memory) (a : Nat) (v : Nat) :
    Memory.read (Memory.write m a v) a = some v := by
  induction m with
  | nil => simp [Memory.write, Memory.read_cons]
  | cons c m ih =>
    obtain ⟨b, w⟩ := c
    rw [Memory.write]
    split
    · simp [Memory.read_cons]
    · split
      · simp [Memory.read_cons]
      · rename_i h; rw [Memory.read_cons, if_neg h, ih]

theorem Memory.read_write_other (m : Memory) {a b : Nat} (v : Nat) (h : b ≠ a) :
    Memory.read (Memory.write m a v) b = Memory.read m b := by
  induction m with
  | nil => simp [Memory.write, Memory.read_cons, h]
  | cons c m ih =>
    obtain ⟨d, w⟩ := c
    rw [Memory.write]
    split
    · simp [Memory.read_cons, h]
    · split
      · rename_i hd; subst hd; simp [Memory.read_cons, h]
      · simp only [Memory.read_cons, ih]

/-- A write puts `v` at `a` and leaves every other address alone. -/
theorem Memory.read_write (m : Memory) (a b : Nat) (v : Nat) :
    Memory.read (Memory.write m a v) b = if b = a then some v else Memory.read m b := by
  split
  · rename_i h; rw [h, Memory.read_write_self]
  · rename_i h; exact Memory.read_write_other m v h

/-- What a write lists was listed before, or is the cell written. -/
theorem Memory.mem_write {m : Memory} {a : Nat} {v : Nat} {c : Nat × Nat}
    (h : c ∈ Memory.write m a v) : c.1 = a ∨ c ∈ m := by
  induction m with
  | nil => simp_all [Memory.write]
  | cons d m ih =>
    obtain ⟨b, w⟩ := d
    rw [Memory.write] at h
    split at h
    · rcases List.mem_cons.1 h with rfl | h
      · exact .inl rfl
      · exact .inr h
    · split at h
      · rcases List.mem_cons.1 h with rfl | h
        · exact .inl rfl
        · exact .inr (List.mem_cons_of_mem _ h)
      · rcases List.mem_cons.1 h with rfl | h
        · exact .inr (by simp)
        · exact (ih h).imp_right (List.mem_cons_of_mem _)

/-- A write keeps the canonical form. -/
theorem Memory.write_wf {m : Memory} (h : Memory.wf m) (a : Nat) (v : Nat) : Memory.wf (Memory.write m a v) := by
  induction m with
  | nil => simp [Memory.write, Memory.wf]
  | cons c m ih =>
    obtain ⟨b, w⟩ := c
    have hc : (∀ d ∈ m, b < d.1) ∧ Memory.wf m := List.pairwise_cons.1 h
    rw [Memory.write]
    split
    · rename_i hab
      refine List.pairwise_cons.2 ⟨fun d hd => ?_, h⟩
      rcases List.mem_cons.1 hd with rfl | hd
      · exact hab
      · exact Nat.lt_trans hab (hc.1 d hd)
    · split
      · rename_i hab; subst hab; exact List.pairwise_cons.2 hc
      · refine List.pairwise_cons.2 ⟨fun d hd => ?_, ih hc.2⟩
        rcases Memory.mem_write hd with he | hd
        · rw [he]; show b < a; omega
        · exact hc.1 d hd

/-- The write loop puts `v` into `n` cells from `a` on and leaves every other address alone. -/
theorem Memory.read_fill (m : Memory) (a : Nat) (v : Nat) (n b : Nat) :
    Memory.read (Memory.fill m a v n) b = if a ≤ b ∧ b < a + n then some v else Memory.read m b := by
  induction n with
  | zero => rw [Memory.fill, if_neg (by omega)]
  | succ n ih =>
    rw [Memory.fill, Memory.read_write, ih]
    by_cases h : b = a + n
    · rw [if_pos h, if_pos (by omega)]
    · by_cases h' : a ≤ b ∧ b < a + n
      · rw [if_neg h, if_pos h', if_pos (by omega)]
      · rw [if_neg h, if_neg h', if_neg (by omega)]

/-- The write loop keeps the canonical form. -/
theorem Memory.fill_wf {m : Memory} (h : Memory.wf m) (a : Nat) (v : Nat) (n : Nat) :
    Memory.wf (Memory.fill m a v n) := by
  induction n with
  | zero => exact h
  | succ n ih => exact Memory.write_wf ih _ _

/-- Dropping the cells from `a` on leaves the ones below alone. -/
theorem Memory.read_below (m : Memory) (a b : Nat) :
    Memory.read (Memory.below m a) b = if b < a then Memory.read m b else none := by
  induction m with
  | nil => simp [Memory.below]
  | cons c m ih =>
    obtain ⟨d, w⟩ := c
    rw [Memory.below] at ih ⊢
    by_cases hd : d < a
    · rw [List.filter_cons_of_pos (by simpa using hd), Memory.read_cons, Memory.read_cons, ih]
      by_cases hb : b = d
      · simp [hb, hd]
      · simp [hb]
    · rw [List.filter_cons_of_neg (by simpa using hd), Memory.read_cons, ih]
      by_cases hb : b < a
      · rw [if_pos hb, if_pos hb, if_neg (by omega)]
      · simp [hb]

/-- Dropping cells keeps the canonical form. -/
theorem Memory.below_wf {m : Memory} (h : Memory.wf m) (a : Nat) : Memory.wf (Memory.below m a) :=
  List.Pairwise.filter _ h

/-- Stores in the canonical form that read alike are equal. -/
theorem Memory.ext_of_wf {m n : Memory} (hm : Memory.wf m) (hn : Memory.wf n)
    (h : ∀ a, Memory.read m a = Memory.read n a) : m = n := by
  induction m generalizing n with
  | nil =>
    cases n with
    | nil => rfl
    | cons d n => have := h d.1; simp [Memory.read] at this
  | cons c m ih =>
    obtain ⟨a, v⟩ := c
    cases n with
    | nil => have := h a; simp [Memory.read] at this
    | cons d n =>
      obtain ⟨b, w⟩ := d
      have hm' : (∀ d ∈ m, a < d.1) ∧ Memory.wf m := List.pairwise_cons.1 hm
      have hn' : (∀ d ∈ n, b < d.1) ∧ Memory.wf n := List.pairwise_cons.1 hn
      have hab : a = b := by
        rcases Nat.lt_trichotomy a b with hlt | heq | hgt
        · have e := h a
          rw [Memory.read_cons, if_pos rfl, Memory.read_cons, if_neg (by omega),
            Memory.read_of_lt fun d hd => Nat.lt_trans hlt (hn'.1 d hd)] at e
          simp at e
        · exact heq
        · have e := h b
          rw [Memory.read_cons, if_neg (by omega), Memory.read_cons, if_pos rfl,
            Memory.read_of_lt fun d hd => Nat.lt_trans hgt (hm'.1 d hd)] at e
          simp at e
      subst hab
      have hv : v = w := by simpa [Memory.read_cons] using h a
      subst hv
      refine congrArg _ (ih hm'.2 hn'.2 fun x => ?_)
      by_cases hx : x = a
      · subst hx; rw [Memory.read_of_lt hm'.1, Memory.read_of_lt hn'.1]
      · simpa [Memory.read_cons, hx] using h x

end Sys2Proof.Machine
end

