-- ==== Sys2Proof/Laws/State.lean ====
section
/-! SUPPORT. What each named update of State leaves in each field: one lemma per field per update. -/

namespace Sys2Proof.Machine

@[simp] theorem State.setPc_cfg (s : State) (a : Nat) : (s.setPc a).cfg = s.cfg := rfl
@[simp] theorem State.setPc_pc (s : State) (a : Nat) : (s.setPc a).pc = a := rfl
@[simp] theorem State.setPc_ir (s : State) (a : Nat) : (s.setPc a).ir = s.ir := rfl
@[simp] theorem State.setPc_cells (s : State) (a : Nat) : (s.setPc a).cells = s.cells := rfl
@[simp] theorem State.setPc_len (s : State) (a : Nat) : (s.setPc a).len = s.len := rfl
@[simp] theorem State.setPc_wp (s : State) (a : Nat) : (s.setPc a).wp = s.wp := rfl
@[simp] theorem State.setPc_inputs (s : State) (a : Nat) : (s.setPc a).inputs = s.inputs := rfl
@[simp] theorem State.setPc_responses (s : State) (a : Nat) : (s.setPc a).responses = s.responses := rfl
@[simp] theorem State.setPc_trace (s : State) (a : Nat) : (s.setPc a).trace = s.trace := rfl

@[simp] theorem State.setIr_cfg (s : State) (w : Nat) : (s.setIr w).cfg = s.cfg := rfl
@[simp] theorem State.setIr_pc (s : State) (w : Nat) : (s.setIr w).pc = s.pc := rfl
@[simp] theorem State.setIr_ir (s : State) (w : Nat) : (s.setIr w).ir = w := rfl
@[simp] theorem State.setIr_cells (s : State) (w : Nat) : (s.setIr w).cells = s.cells := rfl
@[simp] theorem State.setIr_len (s : State) (w : Nat) : (s.setIr w).len = s.len := rfl
@[simp] theorem State.setIr_wp (s : State) (w : Nat) : (s.setIr w).wp = s.wp := rfl
@[simp] theorem State.setIr_inputs (s : State) (w : Nat) : (s.setIr w).inputs = s.inputs := rfl
@[simp] theorem State.setIr_responses (s : State) (w : Nat) : (s.setIr w).responses = s.responses := rfl
@[simp] theorem State.setIr_trace (s : State) (w : Nat) : (s.setIr w).trace = s.trace := rfl

@[simp] theorem State.setLen_cfg (s : State) (a : Nat) : (s.setLen a).cfg = s.cfg := rfl
@[simp] theorem State.setLen_pc (s : State) (a : Nat) : (s.setLen a).pc = s.pc := rfl
@[simp] theorem State.setLen_ir (s : State) (a : Nat) : (s.setLen a).ir = s.ir := rfl
@[simp] theorem State.setLen_cells (s : State) (a : Nat) : (s.setLen a).cells = s.cells := rfl
@[simp] theorem State.setLen_len (s : State) (a : Nat) : (s.setLen a).len = a := rfl
@[simp] theorem State.setLen_wp (s : State) (a : Nat) : (s.setLen a).wp = s.wp := rfl
@[simp] theorem State.setLen_inputs (s : State) (a : Nat) : (s.setLen a).inputs = s.inputs := rfl
@[simp] theorem State.setLen_responses (s : State) (a : Nat) : (s.setLen a).responses = s.responses := rfl
@[simp] theorem State.setLen_trace (s : State) (a : Nat) : (s.setLen a).trace = s.trace := rfl

@[simp] theorem State.setWp_cfg (s : State) (a : Nat) : (s.setWp a).cfg = s.cfg := rfl
@[simp] theorem State.setWp_pc (s : State) (a : Nat) : (s.setWp a).pc = s.pc := rfl
@[simp] theorem State.setWp_ir (s : State) (a : Nat) : (s.setWp a).ir = s.ir := rfl
@[simp] theorem State.setWp_cells (s : State) (a : Nat) : (s.setWp a).cells = s.cells := rfl
@[simp] theorem State.setWp_len (s : State) (a : Nat) : (s.setWp a).len = s.len := rfl
@[simp] theorem State.setWp_wp (s : State) (a : Nat) : (s.setWp a).wp = a := rfl
@[simp] theorem State.setWp_inputs (s : State) (a : Nat) : (s.setWp a).inputs = s.inputs := rfl
@[simp] theorem State.setWp_responses (s : State) (a : Nat) : (s.setWp a).responses = s.responses := rfl
@[simp] theorem State.setWp_trace (s : State) (a : Nat) : (s.setWp a).trace = s.trace := rfl

@[simp] theorem State.setCells_cfg (s : State) (m : Memory) : (s.setCells m).cfg = s.cfg := rfl
@[simp] theorem State.setCells_pc (s : State) (m : Memory) : (s.setCells m).pc = s.pc := rfl
@[simp] theorem State.setCells_ir (s : State) (m : Memory) : (s.setCells m).ir = s.ir := rfl
@[simp] theorem State.setCells_cells (s : State) (m : Memory) : (s.setCells m).cells = m := rfl
@[simp] theorem State.setCells_len (s : State) (m : Memory) : (s.setCells m).len = s.len := rfl
@[simp] theorem State.setCells_wp (s : State) (m : Memory) : (s.setCells m).wp = s.wp := rfl
@[simp] theorem State.setCells_inputs (s : State) (m : Memory) : (s.setCells m).inputs = s.inputs := rfl
@[simp] theorem State.setCells_responses (s : State) (m : Memory) : (s.setCells m).responses = s.responses := rfl
@[simp] theorem State.setCells_trace (s : State) (m : Memory) : (s.setCells m).trace = s.trace := rfl

@[simp] theorem State.setInputs_cfg (s : State) (ps : List PortsIn) : (s.setInputs ps).cfg = s.cfg := rfl
@[simp] theorem State.setInputs_pc (s : State) (ps : List PortsIn) : (s.setInputs ps).pc = s.pc := rfl
@[simp] theorem State.setInputs_ir (s : State) (ps : List PortsIn) : (s.setInputs ps).ir = s.ir := rfl
@[simp] theorem State.setInputs_cells (s : State) (ps : List PortsIn) : (s.setInputs ps).cells = s.cells := rfl
@[simp] theorem State.setInputs_len (s : State) (ps : List PortsIn) : (s.setInputs ps).len = s.len := rfl
@[simp] theorem State.setInputs_wp (s : State) (ps : List PortsIn) : (s.setInputs ps).wp = s.wp := rfl
@[simp] theorem State.setInputs_inputs (s : State) (ps : List PortsIn) : (s.setInputs ps).inputs = ps := rfl
@[simp] theorem State.setInputs_responses (s : State) (ps : List PortsIn) : (s.setInputs ps).responses = s.responses := rfl
@[simp] theorem State.setInputs_trace (s : State) (ps : List PortsIn) : (s.setInputs ps).trace = s.trace := rfl

@[simp] theorem State.respond_cfg (s : State) (st : Status) (d : Nat) : (s.respond st d).cfg = s.cfg := rfl
@[simp] theorem State.respond_pc (s : State) (st : Status) (d : Nat) : (s.respond st d).pc = s.pc := rfl
@[simp] theorem State.respond_ir (s : State) (st : Status) (d : Nat) : (s.respond st d).ir = s.ir := rfl
@[simp] theorem State.respond_cells (s : State) (st : Status) (d : Nat) : (s.respond st d).cells = s.cells := rfl
@[simp] theorem State.respond_len (s : State) (st : Status) (d : Nat) : (s.respond st d).len = s.len := rfl
@[simp] theorem State.respond_wp (s : State) (st : Status) (d : Nat) : (s.respond st d).wp = s.wp := rfl
@[simp] theorem State.respond_inputs (s : State) (st : Status) (d : Nat) : (s.respond st d).inputs = s.inputs := rfl
@[simp] theorem State.respond_responses (s : State) (st : Status) (d : Nat) : (s.respond st d).responses = s.responses ++ [⟨st, d⟩] := rfl
@[simp] theorem State.respond_trace (s : State) (st : Status) (d : Nat) : (s.respond st d).trace = s.trace := rfl

@[simp] theorem State.emit_cfg (s : State) (op : Nat) (a : Nat) : (s.emit op a).cfg = s.cfg := rfl
@[simp] theorem State.emit_pc (s : State) (op : Nat) (a : Nat) : (s.emit op a).pc = s.pc := rfl
@[simp] theorem State.emit_ir (s : State) (op : Nat) (a : Nat) : (s.emit op a).ir = s.ir := rfl
@[simp] theorem State.emit_cells (s : State) (op : Nat) (a : Nat) : (s.emit op a).cells = s.cells := rfl
@[simp] theorem State.emit_len (s : State) (op : Nat) (a : Nat) : (s.emit op a).len = s.len := rfl
@[simp] theorem State.emit_wp (s : State) (op : Nat) (a : Nat) : (s.emit op a).wp = s.wp := rfl
@[simp] theorem State.emit_inputs (s : State) (op : Nat) (a : Nat) : (s.emit op a).inputs = s.inputs := rfl
@[simp] theorem State.emit_responses (s : State) (op : Nat) (a : Nat) : (s.emit op a).responses = s.responses := rfl
@[simp] theorem State.emit_trace (s : State) (op : Nat) (a : Nat) : (s.emit op a).trace = s.trace ++ [⟨op, a⟩] := rfl

@[simp] theorem State.dropPending_cfg (s : State) : (s.dropPending).cfg = s.cfg := rfl
@[simp] theorem State.dropPending_pc (s : State) : (s.dropPending).pc = s.pc := rfl
@[simp] theorem State.dropPending_ir (s : State) : (s.dropPending).ir = s.ir := rfl
@[simp] theorem State.dropPending_cells (s : State) : (s.dropPending).cells = Memory.below s.cells s.len := rfl
@[simp] theorem State.dropPending_len (s : State) : (s.dropPending).len = s.len := rfl
@[simp] theorem State.dropPending_wp (s : State) : (s.dropPending).wp = s.len := rfl
@[simp] theorem State.dropPending_inputs (s : State) : (s.dropPending).inputs = s.inputs := rfl
@[simp] theorem State.dropPending_responses (s : State) : (s.dropPending).responses = s.responses := rfl
@[simp] theorem State.dropPending_trace (s : State) : (s.dropPending).trace = s.trace := rfl

@[simp] theorem State.append_cfg (s : State) (k : Kind) (m : Nat) : (s.append k m).cfg = s.cfg := rfl
@[simp] theorem State.append_pc (s : State) (k : Kind) (m : Nat) : (s.append k m).pc = s.pc := rfl
@[simp] theorem State.append_ir (s : State) (k : Kind) (m : Nat) : (s.append k m).ir = s.ir := rfl
@[simp] theorem State.append_cells (s : State) (k : Kind) (m : Nat) : (s.append k m).cells = Memory.fill s.cells s.wp (k.unitWord s.cfg) m := rfl
@[simp] theorem State.append_len (s : State) (k : Kind) (m : Nat) : (s.append k m).len = s.len := rfl
@[simp] theorem State.append_wp (s : State) (k : Kind) (m : Nat) : (s.append k m).wp = s.wp + m := rfl
@[simp] theorem State.append_inputs (s : State) (k : Kind) (m : Nat) : (s.append k m).inputs = s.inputs := rfl
@[simp] theorem State.append_responses (s : State) (k : Kind) (m : Nat) : (s.append k m).responses = s.responses := rfl
@[simp] theorem State.append_trace (s : State) (k : Kind) (m : Nat) : (s.append k m).trace = s.trace := rfl

@[simp] theorem State.commit_cfg (s : State) : (s.commit).cfg = s.cfg := rfl
@[simp] theorem State.commit_pc (s : State) : (s.commit).pc = s.pc := rfl
@[simp] theorem State.commit_ir (s : State) : (s.commit).ir = s.ir := rfl
@[simp] theorem State.commit_cells (s : State) : (s.commit).cells = s.cells := rfl
@[simp] theorem State.commit_len (s : State) : (s.commit).len = s.wp := rfl
@[simp] theorem State.commit_wp (s : State) : (s.commit).wp = s.wp := rfl
@[simp] theorem State.commit_inputs (s : State) : (s.commit).inputs = s.inputs := rfl
@[simp] theorem State.commit_responses (s : State) : (s.commit).responses = s.responses ++ [⟨.ok, s.len⟩] := rfl
@[simp] theorem State.commit_trace (s : State) : (s.commit).trace = s.trace := rfl

@[simp] theorem State.hardReset_cfg (s : State) : (s.hardReset).cfg = s.cfg := rfl
@[simp] theorem State.hardReset_pc (s : State) : (s.hardReset).pc = 0 := rfl
@[simp] theorem State.hardReset_ir (s : State) : (s.hardReset).ir = noneWord s.cfg := rfl
@[simp] theorem State.hardReset_cells (s : State) : (s.hardReset).cells = [] := rfl
@[simp] theorem State.hardReset_len (s : State) : (s.hardReset).len = 0 := rfl
@[simp] theorem State.hardReset_wp (s : State) : (s.hardReset).wp = 0 := rfl
@[simp] theorem State.hardReset_inputs (s : State) : (s.hardReset).inputs = s.inputs := rfl
@[simp] theorem State.hardReset_responses (s : State) : (s.hardReset).responses = s.responses := rfl
@[simp] theorem State.hardReset_trace (s : State) : (s.hardReset).trace = s.trace := rfl

@[simp] theorem State.offer_cfg (s : State) (cmd : BitVec 4) (arg : Nat) : (s.offer cmd arg).cfg = s.cfg := rfl
@[simp] theorem State.offer_pc (s : State) (cmd : BitVec 4) (arg : Nat) : (s.offer cmd arg).pc = s.pc := rfl
@[simp] theorem State.offer_ir (s : State) (cmd : BitVec 4) (arg : Nat) : (s.offer cmd arg).ir = s.ir := rfl
@[simp] theorem State.offer_cells (s : State) (cmd : BitVec 4) (arg : Nat) : (s.offer cmd arg).cells = s.cells := rfl
@[simp] theorem State.offer_len (s : State) (cmd : BitVec 4) (arg : Nat) : (s.offer cmd arg).len = s.len := rfl
@[simp] theorem State.offer_wp (s : State) (cmd : BitVec 4) (arg : Nat) : (s.offer cmd arg).wp = s.wp := rfl
@[simp] theorem State.offer_inputs (s : State) (cmd : BitVec 4) (arg : Nat) : (s.offer cmd arg).inputs = ⟨false, true, cmd, arg⟩ :: s.inputs := rfl
@[simp] theorem State.offer_responses (s : State) (cmd : BitVec 4) (arg : Nat) : (s.offer cmd arg).responses = s.responses := rfl
@[simp] theorem State.offer_trace (s : State) (cmd : BitVec 4) (arg : Nat) : (s.offer cmd arg).trace = s.trace := rfl

end Sys2Proof.Machine
end

