-- ==== Sys2Proof/Laws/Ops.lean ====
section
/-! SUPPORT. One lemma for each shared operation that says all it can do, and the inversions of `exec` and `step` that
later proofs cite instead of unfolding the meanings. -/

namespace Sys2Proof.Machine

/-! ### Tests -/

theorem inRange_iff {s : State} {a : Nat} : s.inRange a = true ↔ a < s.len := by simp [State.inRange]

theorem fits_iff {s : State} {m : Nat} : s.fits m = true ↔ s.wp + m ≤ s.cfg.memCells := by simp [State.fits]

theorem hasPending_iff {s : State} : s.hasPending = true ↔ s.len < s.wp := by simp [State.hasPending]

theorem runLength_pos (n : Nat) : 1 ≤ runLength n := Nat.le_max_right n 1

/-- An operand that fits an address is used as it is (R89). -/
theorem addrOperand_of_lt {s : State} {arg : Nat} (h : arg < 2 ^ s.cfg.addrW) : s.addrOperand arg = arg :=
  Nat.mod_eq_of_lt h

/-- An operand that fits a run word is used as it is (R85). -/
theorem runOperand_of_lt {s : State} {arg : Nat} (h : arg < 2 ^ s.cfg.wordW) : s.runOperand arg = arg :=
  Nat.mod_eq_of_lt h

theorem runOperand_lt (s : State) (arg : Nat) : s.runOperand arg < 2 ^ s.cfg.wordW := Nat.mod_lt _ (Nat.two_pow_pos _)

theorem addrOperand_lt (s : State) (arg : Nat) : s.addrOperand arg < 2 ^ s.cfg.addrW := Nat.mod_lt _ (Nat.two_pow_pos _)

/-- The port's ARG_W bits hold the whole run word (R6, R85). -/
@[simp] theorem runOperand_mod (s : State) (arg : Nat) : s.runOperand (arg % 2 ^ s.cfg.argW) = s.runOperand arg :=
  Nat.mod_mod_of_dvd _ (Nat.pow_dvd_pow 2 (Nat.le_max_left _ _))

/-- The port's ARG_W bits hold the whole address (R6, R85). -/
@[simp] theorem addrOperand_mod (s : State) (arg : Nat) : s.addrOperand (arg % 2 ^ s.cfg.argW) = s.addrOperand arg :=
  Nat.mod_mod_of_dvd _ (Nat.pow_dvd_pow 2 (Nat.le_max_right _ _))

/-! ### MemRead -/

theorem memRead_outOfRange_iff {s : State} {a : Nat} : s.memRead a = .outOfRange ↔ s.len ≤ a := by
  rw [State.memRead]
  by_cases h : s.inRange a = true
  · have := inRange_iff.1 h
    rw [if_pos h]
    constructor
    · intro hr; split at hr
      · cases hr
      · split at hr <;> cases hr
    · intro; omega
  · rw [if_neg h]
    have : ¬ a < s.len := fun h' => h (inRange_iff.2 h')
    simp; omega

/-- A read gives a unit instruction exactly when the address is committed and the cell holds that unit's word. -/
theorem memRead_cell_iff {s : State} {a : Nat} {k : Kind} :
    s.memRead a = .cell k ↔ a < s.len ∧ Memory.read s.cells a = some (k.unitWord s.cfg) := by
  rw [State.memRead]
  by_cases h : s.inRange a = true
  · rw [if_pos h]
    constructor
    · intro hr
      refine ⟨inRange_iff.1 h, ?_⟩
      split at hr
      · cases hr
      · rename_i w hw
        split at hr
        · rename_i k' hk
          cases hr
          rw [hw, unitOfWord_eq_some hk]
        · cases hr
    · rintro ⟨-, hr⟩
      rw [hr]
      simp
  · rw [if_neg h]
    constructor
    · intro hr; cases hr
    · rintro ⟨hr, -⟩; exact absurd (inRange_iff.2 hr) h

/-! ### Delivering a fault -/

@[simp] theorem takeFault_cfg (f : CmdFault) (s : State) : (takeFault f s).cfg = s.cfg := by cases f <;> rfl
@[simp] theorem takeFault_pc (f : CmdFault) (s : State) : (takeFault f s).pc = s.pc := by cases f <;> rfl
@[simp] theorem takeFault_ir (f : CmdFault) (s : State) : (takeFault f s).ir = s.ir := by cases f <;> rfl
@[simp] theorem takeFault_len (f : CmdFault) (s : State) : (takeFault f s).len = s.len := by cases f <;> rfl
@[simp] theorem takeFault_inputs (f : CmdFault) (s : State) : (takeFault f s).inputs = s.inputs := by cases f <;> rfl
@[simp] theorem takeFault_trace (f : CmdFault) (s : State) : (takeFault f s).trace = s.trace := by cases f <;> rfl
@[simp] theorem takeFault_responses (f : CmdFault) (s : State) :
    (takeFault f s).responses = s.responses ++ [⟨f.status, f.info s⟩] := by cases f <;> rfl
theorem takeFault_wp (f : CmdFault) (s : State) :
    (takeFault f s).wp = if f.dropsPending then s.len else s.wp := by cases f <;> rfl
theorem takeFault_cells (f : CmdFault) (s : State) :
    (takeFault f s).cells = if f.dropsPending then Memory.below s.cells s.len else s.cells := by cases f <;> rfl

/-! ### Stepping over an instruction -/

@[simp] theorem stepOver_cfg (s : State) (w : Nat) : (s.stepOver w).cfg = s.cfg := by
  simp only [State.stepOver]; split <;> rfl
@[simp] theorem stepOver_pc (s : State) (w : Nat) : (s.stepOver w).pc = s.pc + 1 := by
  simp only [State.stepOver]; split <;> rfl
@[simp] theorem stepOver_ir (s : State) (w : Nat) : (s.stepOver w).ir = if isHalt s.cfg w then s.ir else w := by
  simp only [State.stepOver]; split <;> rfl
@[simp] theorem stepOver_cells (s : State) (w : Nat) : (s.stepOver w).cells = s.cells := by
  simp only [State.stepOver]; split <;> rfl
@[simp] theorem stepOver_len (s : State) (w : Nat) : (s.stepOver w).len = s.len := by
  simp only [State.stepOver]; split <;> rfl
@[simp] theorem stepOver_wp (s : State) (w : Nat) : (s.stepOver w).wp = s.wp := by
  simp only [State.stepOver]; split <;> rfl
@[simp] theorem stepOver_inputs (s : State) (w : Nat) : (s.stepOver w).inputs = s.inputs := by
  simp only [State.stepOver]; split <;> rfl
@[simp] theorem stepOver_responses (s : State) (w : Nat) :
    (s.stepOver w).responses = s.responses ++ [⟨.ok, w⟩] := by
  simp only [State.stepOver]; split <;> rfl
@[simp] theorem stepOver_trace (s : State) (w : Nat) : (s.stepOver w).trace = s.trace ++ [⟨w, s.pc⟩] := by
  simp only [State.stepOver]; split <;> rfl

/-- Stepping over a unit instruction, as one update (R140, R144). -/
theorem stepOver_unit (s : State) (k : Kind) : s.stepOver (k.unitWord s.cfg) = { s with
    pc := s.pc + 1
    ir := if k = .halt then s.ir else k.unitWord s.cfg
    trace := s.trace ++ [⟨k.unitWord s.cfg, s.pc⟩]
    responses := s.responses ++ [⟨.ok, k.unitWord s.cfg⟩] } := by
  simp only [State.stepOver, isHalt_unitWord]
  cases k <;> rfl

/-! ### What an instruction can do -/

/-- Every way an instruction `i` can lead from `s` to a next state `t`. -/
inductive Effect (s : State) (i : Instr) (t : State) : Prop where
  | unit (k : Kind) (hi : i = k.unitInstr) (ht : t = s.stepOver (k.unitWord s.cfg))
  | step (arg : Nat) (k : Kind) (hi : i = .step arg) (h : s.memRead s.pc = .cell k)
      (ht : t = s.stepOver (k.unitWord s.cfg))
  | stepOut (arg : Nat) (hi : i = .step arg) (h : s.len ≤ s.pc)
      (ht : t = takeFault (.outOfRange s.pc) s)
  | run (k : Kind) (n : Nat) (hi : i = k.runInstr n ∨ ∃ w, i = .xrRun w ∧ runOfWord s.cfg (s.runOperand w) = some (k, n))
      (h : s.wp + runLength n ≤ s.cfg.memCells) (ht : t = (s.append k (runLength n)).respond .ok 0)
  | runFull (k : Kind) (n : Nat) (hi : i = k.runInstr n ∨ ∃ w, i = .xrRun w ∧ runOfWord s.cfg (s.runOperand w) = some (k, n))
      (h : s.cfg.memCells < s.wp + runLength n) (ht : t = takeFault .storeFull s)
  | runIllegal (w : Nat) (hi : i = .xrRun w) (h : runOfWord s.cfg (s.runOperand w) = none)
      (ht : t = takeFault (.illegalRun (s.runOperand w)) s)
  | xrEnd (arg : Nat) (hi : i = .xrEnd arg) (h : s.pendingEndsInHalt = some true) (ht : t = s.commit)
  | xrEndHalt (arg : Nat) (hi : i = .xrEnd arg) (h : s.pendingEndsInHalt = some false)
      (hf : s.wp + 1 ≤ s.cfg.memCells) (ht : t = (s.append .halt 1).commit)
  | xrEndFull (arg : Nat) (hi : i = .xrEnd arg) (h : s.pendingEndsInHalt = some false)
      (hf : s.cfg.memCells < s.wp + 1) (ht : t = takeFault .storeFull s)
  | xrAbort (arg : Nat) (hi : i = .xrAbort arg) (ht : t = s.dropPending.respond .ok 0)
  | pcLoad (arg : Nat) (hi : i = .pcLoad arg) (ht : t = (s.setPc (s.addrOperand arg)).respond .ok 0)
  | cpuReset (arg : Nat) (hi : i = .cpuReset arg)
      (ht : t = ((s.setPc 0).setIr (noneWord s.cfg)).respond .ok 0)
  | fetch (arg : Nat) (k : Kind) (hi : i = .fetch arg) (h : s.memRead (s.addrOperand arg) = .cell k)
      (ht : t = s.respond .ok (k.unitWord s.cfg))
  | fetchOut (arg : Nat) (hi : i = .fetch arg) (h : s.len ≤ (s.addrOperand arg))
      (ht : t = takeFault (.outOfRange (s.addrOperand arg)) s)
  | rdPc (arg : Nat) (hi : i = .rdPc arg) (ht : t = s.respond .ok s.pc)
  | rdIr (arg : Nat) (hi : i = .rdIr arg) (ht : t = s.respond .ok s.ir)
  | rdLen (arg : Nat) (hi : i = .rdLen arg) (ht : t = s.respond .ok s.len)

/-- A run that is appended, or dropped as StoreFull. -/
theorem appendRun_cases (k : Kind) (n : Nat) (s : State) :
    (s.wp + runLength n ≤ s.cfg.memCells ∧
      appendRun k n s = (s.append k (runLength n)).respond .ok 0) ∨
    (s.cfg.memCells < s.wp + runLength n ∧ appendRun k n s = takeFault .storeFull s) := by
  rw [appendRun]
  by_cases h : s.fits (runLength n) = true
  · exact .inl ⟨fits_iff.1 h, if_pos h⟩
  · exact .inr ⟨Nat.lt_of_not_le fun h' => h (fits_iff.2 h'), if_neg h⟩

/-- STEP on a committed cell is the unit instruction in it (R140). -/
theorem exec_step_cell {s : State} (arg : Nat) {k : Kind} (h : s.memRead s.pc = .cell k) :
    exec (.step arg) s = .next (s.stepOver (k.unitWord s.cfg)) := by
  simp only [exec, execStep, h]; cases k <;> rfl

/-- XR_RUN on a word that encodes a run is that run instruction (R114). -/
theorem exec_xrRun_run {s : State} {w : Nat} {k : Kind} {n : Nat} (h : runOfWord s.cfg (s.runOperand w) = some (k, n)) :
    exec (.xrRun w) s = .next (appendRun k n s) := by
  simp only [exec, execXrRun, h]; cases k <;> rfl

theorem exec_unitInstr (k : Kind) (s : State) : exec k.unitInstr s = .next (s.stepOver (k.unitWord s.cfg)) := by
  cases k <;> rfl

theorem exec_runInstr (k : Kind) (n : Nat) (s : State) : exec (k.runInstr n) s = .next (appendRun k n s) := by
  cases k <;> rfl

theorem appendRun_effect {i : Instr} {k : Kind} {n : Nat} {s : State}
    (hi : i = k.runInstr n ∨ ∃ w, i = .xrRun w ∧ runOfWord s.cfg (s.runOperand w) = some (k, n)) : Effect s i (appendRun k n s) := by
  obtain ⟨hf, e⟩ | ⟨hf, e⟩ := appendRun_cases k n s
  · exact .run k n hi hf e
  · exact .runFull k n hi hf e

/-- Whatever `exec` answers next is one of the effects. -/
theorem exec_effect {i : Instr} {s t : State} (h : exec i s = .next t) : Effect s i t := by
  cases i with
  | compute => cases h; exact .unit .compute rfl rfl
  | ioWait => cases h; exact .unit .ioWait rfl rfl
  | halt => cases h; exact .unit .halt rfl rfl
  | runCompute n => cases h; exact appendRun_effect (.inl rfl)
  | runIoWait n => cases h; exact appendRun_effect (.inl rfl)
  | runHalt n => cases h; exact appendRun_effect (.inl rfl)
  | xrRun w =>
    cases hw : runOfWord s.cfg (s.runOperand w) with
    | none => simp only [exec, execXrRun, hw] at h; cases h; exact .runIllegal w rfl hw rfl
    | some r =>
      obtain ⟨k, n⟩ := r
      rw [exec_xrRun_run hw] at h; cases h
      exact appendRun_effect (.inr ⟨w, rfl, hw⟩)
  | xrEnd arg =>
    simp only [exec, execXrEnd] at h
    split at h
    · cases h
    · rename_i hp; cases h; exact .xrEnd arg rfl hp rfl
    · rename_i hp
      cases h
      by_cases hf : s.fits 1 = true
      · exact .xrEndHalt arg rfl hp (fits_iff.1 hf) (if_pos hf)
      · exact .xrEndFull arg rfl hp (Nat.lt_of_not_le fun h' => hf (fits_iff.2 h')) (if_neg hf)
  | xrAbort arg => cases h; exact .xrAbort arg rfl rfl
  | step arg =>
    cases hm : s.memRead s.pc with
    | cell k => rw [exec_step_cell arg hm] at h; cases h; exact .step arg k rfl hm rfl
    | outOfRange =>
      simp only [exec, execStep, hm] at h; cases h
      exact .stepOut arg rfl (memRead_outOfRange_iff.1 hm) rfl
    | stuck f => simp only [exec, execStep, hm] at h; cases h
  | pcLoad arg => cases h; exact .pcLoad arg rfl rfl
  | cpuReset arg => cases h; exact .cpuReset arg rfl rfl
  | fetch arg =>
    simp only [exec, execFetch] at h
    split at h
    · rename_i hm; cases h; exact .fetchOut arg rfl (memRead_outOfRange_iff.1 hm) rfl
    · cases h
    · rename_i k hm; cases h; exact .fetch arg k rfl hm rfl
  | rdPc arg => cases h; exact .rdPc arg rfl rfl
  | rdIr arg => cases h; exact .rdIr arg rfl rfl
  | rdLen arg => cases h; exact .rdLen arg rfl rfl

/-! ### What a step can do -/

/-- Whatever `step` answers next: idle for want of a sample, a reset, an idle sample, an instruction's effect, or
IllegalCommand. -/
theorem step_cases {s t : State} (h : step s = .next t) :
    (s.inputs = [] ∧ t = s) ∨
    ∃ p ps, s.inputs = p :: ps ∧
      ((p.request s.cfg = .reset ∧ t = (s.setInputs ps).hardReset) ∨
       (p.request s.cfg = .idle ∧ t = s.setInputs ps) ∨
       (∃ i, p.request s.cfg = .run i ∧ exec i (s.setInputs ps) = .next t ∧ Effect (s.setInputs ps) i t) ∨
       (∃ c, p.request s.cfg = .reserved c ∧ t = takeFault (.illegalCommand c) (s.setInputs ps))) := by
  simp only [step, State.sample] at h
  cases hin : s.inputs with
  | nil => rw [hin] at h; cases h; exact .inl ⟨rfl, rfl⟩
  | cons p ps =>
    rw [hin] at h
    simp only at h
    refine .inr ⟨p, ps, rfl, ?_⟩
    split at h
    · rename_i hr; cases h; exact .inl ⟨hr, rfl⟩
    · rename_i hr; cases h; exact .inr (.inl ⟨hr, rfl⟩)
    · rename_i i hr; exact .inr (.inr (.inl ⟨i, hr, h, exec_effect h⟩))
    · rename_i c hr; cases h; exact .inr (.inr (.inr ⟨c, hr, rfl⟩))

/-- A taken command is the instruction its code decodes to. -/
theorem request_run {c : Config} {p : PortsIn} {i : Instr} (h : p.request c = .run i) :
    p.rst = false ∧ p.cmdValid = true ∧ decodeCommand p.cmd (p.arg % 2 ^ c.argW) = .ok i := by
  simp only [PortsIn.request, decode_command, PortsIn.takes, PortsIn.cmdReady] at h
  cases hr : p.rst <;> cases hv : p.cmdValid <;> simp [hr, hv] at h
  refine ⟨rfl, rfl, ?_⟩
  cases hd : decodeCommand p.cmd (p.arg % 2 ^ c.argW) with
  | ok j => rw [hd] at h; cases h; rfl
  | reject r => rw [hd] at h; cases h

/-- An offered command that decodes is what the step executes. -/
theorem step_offer {s : State} {c : BitVec 4} {arg : Nat} {i : Instr} 
    (h : decodeCommand c (arg % 2 ^ s.cfg.argW) = .ok i) :
    step (s.offer c arg) = exec i s := by
  simp only [step, State.sample, State.offer_inputs, State.offer_cfg, PortsIn.request, PortsIn.takes, PortsIn.cmdReady,
    decode_command, h]
  rfl

end Sys2Proof.Machine
end

