-- ==== Sys2Proof/Laws/Effects.lean ====
section
/-! SUPPORT. The XR's shared operations in the terms of `Safety.lean`: what appending cells and dropping the pending program
do, and what they leave alone. -/

namespace Sys2Proof.Machine

/-- Appending `m` unit words that fit (R114). -/
theorem append_appended (s : State) (k : Kind) (m : Nat) :
    Appended (k.unitWord s.cfg) m s ((s.append k m).respond .ok 0) where
  cfg := rfl
  pc := rfl
  ir := rfl
  len := rfl
  inputs := rfl
  trace := rfl
  responses := rfl
  wp := rfl
  written a h₁ h₂ := by
    rw [State.respond_cells, State.append_cells, Memory.read_fill, if_pos ⟨h₁, h₂⟩]
  others a ha := by
    rw [State.respond_cells, State.append_cells, Memory.read_fill, if_neg (by omega)]

/-- Dropping the pending program and answering (R119). -/
theorem dropPending_dropped (s : State) (st : Status) (d : Nat) :
    PendingDropped st d s (s.dropPending.respond st d) where
  cfg := rfl
  pc := rfl
  ir := rfl
  len := rfl
  inputs := rfl
  trace := rfl
  responses := rfl
  wp := rfl
  committed a ha := by
    rw [State.respond_cells, State.dropPending_cells, Memory.read_below, if_pos ha]
  dropped a ha := by
    rw [State.respond_cells, State.dropPending_cells, Memory.read_below, if_neg (by omega)]

/-- StoreFull (R202). -/
theorem storeFull_dropped (s : State) : PendingDropped .storeFull s.len s (takeFault .storeFull s) :=
  dropPending_dropped s .storeFull s.len

/-- IllegalRun (R203). -/
theorem illegalRun_dropped (s : State) (w : Nat) :
    PendingDropped .illegalRun w s (takeFault (.illegalRun w) s) :=
  dropPending_dropped s .illegalRun w

/-- Whether the pending program ends in a Halt, read off the cell below WP (R118). -/
theorem pendingEndsInHalt_eq (s : State) :
    s.pendingEndsInHalt =
      if s.len < s.wp then (Memory.read s.cells (s.wp - 1)).map (isHalt s.cfg) else some false := by
  rw [State.pendingEndsInHalt]
  by_cases h : s.len < s.wp
  · rw [if_pos (hasPending_iff.2 h), if_pos h]; cases Memory.read s.cells (s.wp - 1) <;> rfl
  · rw [if_neg fun h' => h (hasPending_iff.1 h'), if_neg h]

/-- In a state that meets the invariant a committed cell reads as a unit instruction. -/
theorem Inv.memRead_cell {s : State} (h : Inv s) {a : Nat} (ha : a < s.len) :
    ∃ k, s.memRead a = .cell k := by
  obtain ⟨w, hw, hu⟩ := h.cells_unit a (Nat.lt_of_lt_of_le ha h.len_le_wp)
  rcases hu with rfl | rfl | rfl
  · exact ⟨.compute, memRead_cell_iff.2 ⟨ha, hw⟩⟩
  · exact ⟨.ioWait, memRead_cell_iff.2 ⟨ha, hw⟩⟩
  · exact ⟨.halt, memRead_cell_iff.2 ⟨ha, hw⟩⟩

end Sys2Proof.Machine
end

