-- ==== Sys2Proof/Laws/PerInstr.lean ====
section
/-! SUPPORT. Per-instruction facts: the code word of every instruction matches its own row of `spec/opcode_table.json`. -/

namespace Sys2Proof.Laws.TableRow

/-- A row's width, how many low bits its mask leaves free (0 for `0xFFFF`, 14 for `0xC000`, 16 for `0xF0000`), and its match. -/
structure Row where
  width : Nat
  free  : Nat
  value : Nat
  deriving DecidableEq, Repr

/-- The row of each instruction, at the default widths the table is written at. -/
def row : Instr → Row
  | .compute      => ⟨16, 0, 0x0000⟩
  | .ioWait       => ⟨16, 0, 0x4000⟩
  | .halt         => ⟨16, 0, 0x8000⟩
  | .runCompute _ => ⟨16, 14, 0x0000⟩
  | .runIoWait _  => ⟨16, 14, 0x4000⟩
  | .runHalt _    => ⟨16, 14, 0x8000⟩
  | .xrRun _      => ⟨20, 16, 0x10000⟩
  | .xrEnd _      => ⟨20, 16, 0x20000⟩
  | .xrAbort _    => ⟨20, 16, 0x30000⟩
  | .step _       => ⟨20, 16, 0x40000⟩
  | .pcLoad _     => ⟨20, 16, 0x50000⟩
  | .cpuReset _   => ⟨20, 16, 0x60000⟩
  | .fetch _      => ⟨20, 16, 0x70000⟩
  | .rdPc _       => ⟨20, 16, 0x80000⟩
  | .rdIr _       => ⟨20, 16, 0x90000⟩
  | .rdLen _      => ⟨20, 16, 0xA0000⟩

/-- The width and the number of a code word. -/
def bits : Code → Nat × Nat
  | .unit w    => (16, w)
  | .run w     => (16, w)
  | .command v => (20, v)

/-- A number of the row's width that matches the row in every bit its mask fixes. -/
def Row.Matches (r : Row) (b : Nat × Nat) : Prop :=
  b.1 = r.width ∧ b.2 < 2 ^ r.width ∧ b.2 / 2 ^ r.free * 2 ^ r.free = r.value

/-- The encoding matches the row. -/
def Statement (i : Instr) : Prop := (row i).Matches (bits (encode Config.default i))

theorem run_fixed (k : Kind) (n : Nat) :
    runWord Config.default k n / 2 ^ 14 * 2 ^ 14 = k.code.toNat * 2 ^ 14 := by
  have h : runWord Config.default k n = k.code.toNat * 2 ^ 14 + n % 2 ^ 14 := rfl
  rw [h]; omega

theorem command_fixed (cmd : BitVec 4) (a : Nat) :
    commandWord Config.default cmd a / 2 ^ 16 * 2 ^ 16 = cmd.toNat * 2 ^ 16 := by
  have h : commandWord Config.default cmd a = cmd.toNat * 2 ^ 16 + a % 2 ^ 16 := rfl
  rw [h]; omega

theorem compute : Statement .compute := ⟨rfl, by decide, rfl⟩
theorem ioWait : Statement .ioWait := ⟨rfl, by decide, rfl⟩
theorem halt : Statement .halt := ⟨rfl, by decide, rfl⟩
theorem runCompute (n : Nat) : Statement (.runCompute n) :=
  ⟨rfl, runWord_lt Config.default .compute n, run_fixed .compute n⟩
theorem runIoWait (n : Nat) : Statement (.runIoWait n) :=
  ⟨rfl, runWord_lt Config.default .ioWait n, run_fixed .ioWait n⟩
theorem runHalt (n : Nat) : Statement (.runHalt n) :=
  ⟨rfl, runWord_lt Config.default .halt n, run_fixed .halt n⟩
theorem xrRun (arg : Nat) : Statement (.xrRun arg) :=
  ⟨rfl, commandWord_lt Config.default 0x1#4 arg, command_fixed 0x1#4 arg⟩
theorem xrEnd (arg : Nat) : Statement (.xrEnd arg) :=
  ⟨rfl, commandWord_lt Config.default 0x2#4 arg, command_fixed 0x2#4 arg⟩
theorem xrAbort (arg : Nat) : Statement (.xrAbort arg) :=
  ⟨rfl, commandWord_lt Config.default 0x3#4 arg, command_fixed 0x3#4 arg⟩
theorem step (arg : Nat) : Statement (.step arg) :=
  ⟨rfl, commandWord_lt Config.default 0x4#4 arg, command_fixed 0x4#4 arg⟩
theorem pcLoad (arg : Nat) : Statement (.pcLoad arg) :=
  ⟨rfl, commandWord_lt Config.default 0x5#4 arg, command_fixed 0x5#4 arg⟩
theorem cpuReset (arg : Nat) : Statement (.cpuReset arg) :=
  ⟨rfl, commandWord_lt Config.default 0x6#4 arg, command_fixed 0x6#4 arg⟩
theorem fetch (arg : Nat) : Statement (.fetch arg) :=
  ⟨rfl, commandWord_lt Config.default 0x7#4 arg, command_fixed 0x7#4 arg⟩
theorem rdPc (arg : Nat) : Statement (.rdPc arg) :=
  ⟨rfl, commandWord_lt Config.default 0x8#4 arg, command_fixed 0x8#4 arg⟩
theorem rdIr (arg : Nat) : Statement (.rdIr arg) :=
  ⟨rfl, commandWord_lt Config.default 0x9#4 arg, command_fixed 0x9#4 arg⟩
theorem rdLen (arg : Nat) : Statement (.rdLen arg) :=
  ⟨rfl, commandWord_lt Config.default 0xA#4 arg, command_fixed 0xA#4 arg⟩

end Sys2Proof.Laws.TableRow
end

