-- ==== Sys2Proof/Machine/Assembly.lean ====
section
/-! DEFINITION. The host side's text: the display form of a word (`30_encoding.md` R94) and the assembly syntax (R92). No
step reads or makes text. -/

namespace Sys2Proof.Machine

/-- The three kind names of R92. -/
def Kind.name : Kind → List Char
  | .compute => ['C', 'o', 'm', 'p', 'u', 't', 'e']
  | .ioWait  => ['I', 'o', 'W', 'a', 'i', 't']
  | .halt    => ['H', 'a', 'l', 't']

/-- A decimal digit's character. -/
def digitChar (d : Nat) : Char := Char.ofNat (48 + d % 10)

/-- A number in decimal, by at most `fuel` digits after the last. -/
def decimalDigits : Nat → Nat → List Char
  | 0, n        => [digitChar n]
  | fuel + 1, n => if n < 10 then [digitChar n] else decimalDigits fuel (n / 10) ++ [digitChar n]

/-- `count` as a decimal natural number (R92). A number has no more digits than its own value. -/
def showCount (n : Nat) : List Char := decimalDigits n n

/-- A run in assembly syntax: the kind name, the count in parentheses (R92). -/
def showRun (r : Run) : List Char := Kind.name r.kind ++ ['('] ++ showCount r.rep ++ [')']

/-- The display form: the count only where it is not zero, `NONE` for the sentinel. A number that is neither an instruction's
word nor the sentinel has no display form (R94; log 14). -/
def displayWord (c : Config) (w : Nat) : Option (List Char) :=
  if w = noneWord c then some ['N', 'O', 'N', 'E']
  else if w < 2 ^ c.wordW then
    match runOfWord c w with
    | some (k, 0)     => some (Kind.name k)
    | some (k, n + 1) => some (showRun ⟨k, n + 1⟩)
    | none            => none
  else none

/-- A hexadecimal digit's character. -/
def hexDigit (d : Nat) : Char := Char.ofNat (if d % 16 < 10 then 48 + d % 16 else 55 + d % 16)

/-- The low `n` hexadecimal digits of a number. -/
def hexDigits : Nat → Nat → List Char
  | 0, _     => []
  | n + 1, w => hexDigits n (w / 16) ++ [hexDigit w]

/-- An argument in hexadecimal, as many digits as ARG_W bits need: four at the default width. -/
def showHex (c : Config) (w : Nat) : List Char := ['0', 'x'] ++ hexDigits ((c.argW + 3) / 4) w

/-- An instruction in assembly syntax: a unit instruction is its bare kind name, a run its kind name with the count, a
command its mnemonic and, where the command reads one, its argument, a run word in hexadecimal and an address in decimal
(R92; log 14). -/
def showInstr (c : Config) : Instr → List Char
  | .compute      => Kind.name .compute
  | .ioWait       => Kind.name .ioWait
  | .halt         => Kind.name .halt
  | .runCompute n => showRun ⟨.compute, n⟩
  | .runIoWait n  => showRun ⟨.ioWait, n⟩
  | .runHalt n    => showRun ⟨.halt, n⟩
  | .xrRun arg    => ['X', 'R', '_', 'R', 'U', 'N', ' '] ++ showHex c arg
  | .xrEnd _      => ['X', 'R', '_', 'E', 'N', 'D']
  | .xrAbort _    => ['X', 'R', '_', 'A', 'B', 'O', 'R', 'T']
  | .step _       => ['S', 'T', 'E', 'P']
  | .pcLoad arg   => ['P', 'C', '_', 'L', 'O', 'A', 'D', ' '] ++ showCount arg
  | .cpuReset _   => ['C', 'P', 'U', '_', 'R', 'E', 'S', 'E', 'T']
  | .fetch arg    => ['F', 'E', 'T', 'C', 'H', ' '] ++ showCount arg
  | .rdPc _       => ['R', 'D', '_', 'P', 'C']
  | .rdIr _       => ['R', 'D', '_', 'I', 'R']
  | .rdLen _      => ['R', 'D', '_', 'L', 'E', 'N']

/-- Skip blanks; the grammar has none and the spec's examples put one after a comma (log 14). -/
def skipBlanks (cs : List Char) : List Char := cs.dropWhile (· == ' ')

/-- Read a fixed text. -/
def expectText : List Char → List Char → Option (List Char)
  | [], cs          => some cs
  | _ :: _, []      => none
  | t :: ts, c :: cs => if t = c then expectText ts cs else none

/-- `kind` (R92). -/
def parseKind (cs : List Char) : Option (Kind × List Char) :=
  match expectText (Kind.name .compute) cs with
  | some rest => some (.compute, rest)
  | none =>
    match expectText (Kind.name .ioWait) cs with
    | some rest => some (.ioWait, rest)
    | none =>
      match expectText (Kind.name .halt) cs with
      | some rest => some (.halt, rest)
      | none      => none

/-- The value of a decimal digit. -/
def digitValue (c : Char) : Option Nat :=
  if 48 ≤ c.toNat ∧ c.toNat ≤ 57 then some (c.toNat - 48) else none

/-- The rest of a decimal number of which `acc` has been read. -/
def parseDigits (acc : Nat) : List Char → Nat × List Char
  | []      => (acc, [])
  | c :: cs =>
    match digitValue c with
    | some d => parseDigits (10 * acc + d) cs
    | none   => (acc, c :: cs)

/-- `count`: at least one decimal digit (R92). -/
def parseCount : List Char → Option (Nat × List Char)
  | []      => none
  | c :: cs =>
    match digitValue c with
    | some d => some (parseDigits d cs)
    | none   => none

/-- `run ::= kind "(" count ")"` (R92). -/
def parseRun (cs : List Char) : Option (Run × List Char) :=
  match parseKind cs with
  | none         => none
  | some (k, cs) =>
    match expectText ['('] cs with
    | none    => none
    | some cs =>
      match parseCount cs with
      | none         => none
      | some (n, cs) =>
        match expectText [')'] cs with
        | none    => none
        | some cs => some (⟨k, n⟩, skipBlanks cs)

/-- The runs after the first of a program, up to the closing bracket; `fuel` bounds their number. -/
def parseMore : Nat → List Char → Option (List Run)
  | 0, _         => none
  | fuel + 1, cs =>
    match cs with
    | [']']     => some []
    | ',' :: cs =>
      match parseRun (skipBlanks cs) with
      | none         => none
      | some (r, cs) =>
        match parseMore fuel cs with
        | none    => none
        | some rs => some (r :: rs)
    | _ => none

/-- `program ::= "[" [ run ("," run)* ] "]"` (R92). The empty program is legal. -/
def parseProgram (cs : List Char) : Option (List Run) :=
  match expectText ['['] cs with
  | none    => none
  | some cs =>
    match skipBlanks cs with
    | [']'] => some []
    | cs =>
      match parseRun cs with
      | none         => none
      | some (r, cs) =>
        match parseMore (cs.length + 1) cs with
        | none    => none
        | some rs => some (r :: rs)

/-- A program in assembly syntax (R92). -/
def showProgram (rs : List Run) : List Char :=
  ['['] ++ ([',', ' '].intercalate (rs.map showRun)) ++ [']']

end Sys2Proof.Machine
end

