-- ==== Sys2Proof/Tests/Slice0.lean ====
section
/-! SUPPORT. Tests on small states, their expected results taken from `spec/95_test_vectors.md` and the rules named, and for
every statement with hypotheses a named witness that meets them. -/

namespace Sys2Proof.Tests

open Sys2Proof.Machine

/-! ### Helpers -/

/-- The words `ws` in the cells from `a` on. -/
def cellsFrom : Nat → List Nat → Memory
  | _, []      => []
  | a, w :: ws => (a, w) :: cellsFrom (a + 1) ws

/-- A small state: PC, IR, the committed and the pending cells, the capacity, the port samples to come. -/
def small (pc : Nat) (ir : Nat) (committed pending : List Nat) (cap : Nat := 65535) (ps : List PortsIn := []) :
    State where
  cfg := ⟨14, 16, cap, 1⟩
  pc := pc
  ir := ir
  cells := cellsFrom 0 (committed ++ pending)
  len := committed.length
  wp := committed.length + pending.length
  inputs := ps
  responses := []
  trace := []

/-- The next state of an outcome. -/
def nextOf : Host.Outcome State Fault Refusal → Option State
  | .next s    => some s
  | .fault _   => none
  | .refused _ => none

theorem eq_next_of_nextOf {o : Host.Outcome State Fault Refusal} {t : State} (h : nextOf o = some t) : o = .next t := by
  cases o <;> simp_all [nextOf]

/-- PC, IR, LEN and WP, as the vectors write a state. -/
def regs (s : State) : Nat × Nat × Nat × Nat := (s.pc, s.ir, s.len, s.wp)

/-- The registers and the last response after an outcome. -/
def after (o : Host.Outcome State Fault Refusal) : Option ((Nat × Nat × Nat × Nat) × Option Response) :=
  (nextOf o).map fun s => (regs s, s.lastResponse)

/-- The cells, the registers left out. -/
def cellsAfter (o : Host.Outcome State Fault Refusal) : Option Memory := (nextOf o).map State.cells

/-- A command on the ports. -/
def cmd (c : BitVec 4) (a : Nat) : PortsIn := ⟨false, true, c, a⟩

/-- No command offered. -/
def idle : PortsIn := ⟨false, false, 0x4#4, 0⟩

/-- Words of 10 bits and addresses of 8: ARG has 10 bits, and an address sits in its low bits. -/
def narrow : Config := ⟨8, 8, 200, 0⟩

/-- Words of 8 bits and addresses of 16: a run word sits in the low bits of ARG. -/
def wideAddr : Config := ⟨6, 16, 300, 1⟩

/-- The smallest words and addresses: ARG and DATA have 3 bits. -/
def smallest : Config := ⟨1, 3, 7, 1⟩

/-! ### Well-formedness: an ill-formed term for each check -/

theorem test_wellFormed_refuses_runCompute : (Instr.runCompute 16384).wellFormed Config.default = false := by decide
theorem test_wellFormed_refuses_runIoWait : (Instr.runIoWait 16384).wellFormed Config.default = false := by decide
theorem test_wellFormed_refuses_runHalt : (Instr.runHalt 16384).wellFormed Config.default = false := by decide

theorem test_wellFormed_refuses_router_arguments :
    (Instr.xrRun 65536).wellFormed Config.default = false ∧ (Instr.xrEnd 65536).wellFormed Config.default = false ∧
    (Instr.xrAbort 65536).wellFormed Config.default = false := by decide
theorem test_wellFormed_refuses_sequencer_arguments :
    (Instr.step 65536).wellFormed Config.default = false ∧ (Instr.pcLoad 65536).wellFormed Config.default = false ∧
    (Instr.cpuReset 65536).wellFormed Config.default = false := by decide
theorem test_wellFormed_refuses_read_arguments :
    (Instr.fetch 65536).wellFormed Config.default = false ∧ (Instr.rdPc 65536).wellFormed Config.default = false ∧
    (Instr.rdIr 65536).wellFormed Config.default = false ∧ (Instr.rdLen 65536).wellFormed Config.default = false := by
  decide

/-! ### Other widths than the default (R6, R85): the fields move with REPEAT_W, ARG_W is the wider of word and address -/

theorem test_widths : Config.default.wordW = 16 ∧ Config.default.argW = 16 ∧ Config.default.maxRepeat = 16383 ∧
    narrow.wordW = 10 ∧ narrow.argW = 10 ∧ wideAddr.wordW = 8 ∧ wideAddr.argW = 16 ∧ smallest.argW = 3 := by decide

/-- The kind in bits 7:6 and the count below, and CMD in bits 19:16. -/
theorem test_decode_eight_bit_words :
    decode wideAddr (.run 0b01000010) = .ok (.runIoWait 2) ∧ decode wideAddr (.unit 0b10000000) = .ok .halt ∧
    decode wideAddr (.run 0x100) = .reject (.tooWide 0x100) ∧
    decode wideAddr (.command 0x1FF42) = .ok (.xrRun 0xFF42) := by decide

/-- The bits of ARG above a narrower run word are ignored, and IllegalRun answers the run word alone. -/
theorem test_xrRun_narrow_word :
    cellsAfter (exec (.xrRun 0xFF42) (State.resetAt wideAddr)) = some [(0, 0x40), (1, 0x40)] ∧
    after (exec (.xrRun 0xFFC1) (State.resetAt wideAddr)) = some ((0, 0xC0, 0, 0), some ⟨.illegalRun, 0xC1⟩) := by decide

/-- The bits of ARG above a narrower address are ignored. -/
theorem test_pcLoad_narrow_address :
    after (exec (.pcLoad 0x334) (State.resetAt narrow)) = some ((0x34, 0x300, 0, 0), some ⟨.ok, 0⟩) := by decide

/-- Addresses wider than 16 bits. -/
theorem test_pcLoad_wide_address :
    after (exec (.pcLoad 0x12345) (State.resetAt ⟨14, 20, 1000000, 1⟩)) =
      some ((0x12345, 0xC000, 0, 0), some ⟨.ok, 0⟩) := by decide

/-- A code of four bits with a DATA of three: the machine goes on, and only DATA is open (log 19). -/
theorem test_reserved_command_on_smallest_port :
    (nextOf (step ((State.resetAt smallest).offer 0xB#4 0))).map regs = some (0, 6, 0, 0) ∧
    ((nextOf (step ((State.resetAt smallest).offer 0xB#4 0))).bind State.lastResponse).map Response.status =
      some .illegalCommand := by decide

/-! ### Decoding: words written out from R82, R83 and R86, one for every constructor -/

theorem test_decode_units :
    decode Config.default (.unit 0b0000000000000000) = .ok .compute ∧ decode Config.default (.unit 0b0100000000000000) = .ok .ioWait ∧
    decode Config.default (.unit 0b1000000000000000) = .ok .halt := by decide

theorem test_decode_runs :
    decode Config.default (.run 0b0011111111111111) = .ok (.runCompute 16383) ∧
    decode Config.default (.run 0b0100000000000010) = .ok (.runIoWait 2) ∧
    decode Config.default (.run 0b1000000000000011) = .ok (.runHalt 3) := by decide

theorem test_decode_router_commands :
    decode Config.default (.command 0b00010000000000000101) = .ok (.xrRun 5) ∧
    decode Config.default (.command 0b00100000000000000000) = .ok (.xrEnd 0) ∧
    decode Config.default (.command 0b00110000000000000000) = .ok (.xrAbort 0) := by decide

theorem test_decode_sequencer_commands :
    decode Config.default (.command 0b01000000000000000000) = .ok (.step 0) ∧
    decode Config.default (.command 0b01010000000000001001) = .ok (.pcLoad 9) ∧
    decode Config.default (.command 0b01100000000000000000) = .ok (.cpuReset 0) := by decide

theorem test_decode_read_commands :
    decode Config.default (.command 0b01110000000000001010) = .ok (.fetch 10) ∧
    decode Config.default (.command 0b10000000000000000000) = .ok (.rdPc 0) ∧
    decode Config.default (.command 0b10010000000000000000) = .ok (.rdIr 0) ∧
    decode Config.default (.command 0b10100000000000000000) = .ok (.rdLen 0) := by decide

/-- The reserved words of R90, by name. -/
theorem test_decode_rejects :
    decode Config.default (.run 0xC001) = .reject (.reservedRunKind 0xC001) ∧
    decode Config.default (.unit 0xC000) = .reject (.reservedUnitKind 0xC000) ∧
    decode Config.default (.unit 0x0001) = .reject (.unitRepeatNotZero 0x0001) ∧
    decode Config.default (.command 0x00000) = .reject (.reservedCommand 0x0#4) ∧
    decode Config.default (.command 0xF0000) = .reject (.reservedCommand 0xF#4) := by decide

/-! ### The run instructions and XR commands (vectors 2.1, 2.3; R110) -/

/-- `Compute(0)` still appends one cell. -/
theorem test_runCompute_zero :
    after (exec (.runCompute 0) (small 0 0xC000 [] [])) = some ((0, 0xC000, 0, 1), some ⟨.ok, 0⟩) ∧
    cellsAfter (exec (.runCompute 0) (small 0 0xC000 [] [])) = some [(0, 0x0000)] := by decide

theorem test_runIoWait_two :
    cellsAfter (exec (.runIoWait 2) (small 0 0xC000 [] [])) = some [(0, 0x4000), (1, 0x4000)] := by decide

theorem test_runHalt_three :
    cellsAfter (exec (.runHalt 3) (small 0 0xC000 [] [])) =
      some [(0, 0x8000), (1, 0x8000), (2, 0x8000)] := by decide

/-- The run that exactly fills a store of eight cells succeeds. -/
theorem test_xrRun_fills_the_store :
    after (exec (.xrRun 0x4002)
      (small 3 0x4000 [0, 0, 0, 0, 0, 0x8000] [] 8)) =
      some ((3, 0x4000, 6, 8), some ⟨.ok, 0⟩) := by decide

/-- IllegalRun wins over StoreFull and drops what is pending. -/
theorem test_xrRun_illegal_first :
    after (exec (.xrRun 0xC003)
      (small 0 0xC000 [0, 0, 0, 0, 0, 0x8000] [0] 8)) =
      some ((0, 0xC000, 6, 6), some ⟨.illegalRun, 0xC003⟩) := by decide

/-- The empty program is one Halt, at the base the response gives. -/
theorem test_xrEnd_empty :
    after (exec (.xrEnd 0) (small 0 0xC000 [0x8000] [])) =
      some ((0, 0xC000, 2, 2), some ⟨.ok, 1⟩) ∧
    cellsAfter (exec (.xrEnd 0) (small 0 0xC000 [0x8000] [])) =
      some [(0, 0x8000), (1, 0x8000)] := by decide

/-- The closing Halt does not fit: PC and IR untouched, the pending program gone. -/
theorem test_xrEnd_full :
    after (exec (.xrEnd 0)
      (small 3 0x4000 [0, 0, 0, 0, 0, 0x8000] [0x4000, 0x4000] 8)) =
      some ((3, 0x4000, 6, 6), some ⟨.storeFull, 6⟩) := by decide

theorem test_xrAbort_drops :
    after (exec (.xrAbort 0) (small 0 0xC000 [] [0, 0])) =
      some ((0, 0xC000, 0, 0), some ⟨.ok, 0⟩) ∧
    cellsAfter (exec (.xrAbort 0) (small 0 0xC000 [] [0, 0])) = some [] := by decide

/-! ### The unit instructions and the sequencer's commands (vectors 2.4, 2.5; the examples of R142 to R144) -/

theorem test_compute : after (exec .compute (small 9 0x4000 [] [])) =
    some ((10, 0x0000, 0, 0), some ⟨.ok, 0x0000⟩) := by decide

theorem test_ioWait : after (exec .ioWait (small 5 0x0000 [] [])) =
    some ((6, 0x4000, 0, 0), some ⟨.ok, 0x4000⟩) := by decide

/-- A Halt leaves the sentinel in place. -/
theorem test_halt_keeps_ir : after (exec .halt (small 1 0xC000 [] [])) =
    some ((2, 0xC000, 0, 0), some ⟨.ok, 0x8000⟩) := by decide

/-- The memory of vectors 2.4 to 2.6, `C H I H`. -/
def chih : List Nat := [0x0000, 0x8000, 0x4000, 0x8000]

/-- Stepping past a Halt runs the next cell, and the record carries PC before the increment. -/
theorem test_step_past_halt :
    after (exec (.step 0) (small 2 0x0000 chih [])) =
      some ((3, 0x4000, 4, 4), some ⟨.ok, 0x4000⟩) ∧
    (nextOf (exec (.step 0) (small 2 0x0000 chih []))).map State.trace = some [⟨0x4000, 2⟩] := by decide

/-- The highest PC faults, does not wrap and emits nothing. -/
theorem test_step_out_of_range :
    after (exec (.step 0) (small 0xFFFF 0x0000 chih [])) =
      some ((65535, 0x0000, 4, 4), some ⟨.outOfRange, 0xFFFF⟩) ∧
    (nextOf (exec (.step 0) (small 0xFFFF 0x0000 chih []))).map State.trace = some [] := by decide

theorem test_pcLoad_unchecked : after (exec (.pcLoad 0xFFFF) (small 2 0x4000 chih [])) =
    some ((65535, 0x4000, 4, 4), some ⟨.ok, 0⟩) := by decide

theorem test_cpuReset_keeps_pending :
    after (exec (.cpuReset 0) (small 4 0x4000 chih [0, 0])) =
      some ((0, 0xC000, 4, 6), some ⟨.ok, 0⟩) := by decide

/-! ### The read commands (vectors 2.6) -/

theorem test_fetch_committed : after (exec (.fetch 1) (small 2 0 chih [0, 0])) =
    some ((2, 0, 4, 6), some ⟨.ok, 0x8000⟩) := by decide

/-- A pending cell cannot be read. -/
theorem test_fetch_pending : after (exec (.fetch 4) (small 2 0 chih [0, 0])) =
    some ((2, 0, 4, 6), some ⟨.outOfRange, 4⟩) := by decide

theorem test_rdPc : after (exec (.rdPc 0) (small 2 0 chih [0, 0])) =
    some ((2, 0, 4, 6), some ⟨.ok, 2⟩) := by decide

theorem test_rdIr : after (exec (.rdIr 7) State.reset) = some ((0, 0xC000, 0, 0), some ⟨.ok, 0xC000⟩) := by decide

theorem test_rdLen : after (exec (.rdLen 0) (small 2 0 chih [0, 0])) =
    some ((2, 0, 4, 6), some ⟨.ok, 4⟩) := by decide

/-! ### The step: reserved commands, RST, nothing offered (vectors 2.6, 2.7) -/

theorem test_reserved_command_keeps_pending :
    after (step (small 2 0 chih [0, 0] 65535 [cmd 0xB#4 9])) =
      some ((2, 0, 4, 6), some ⟨.illegalCommand, 0x000B⟩) := by decide

/-- RST wins over an offered command: all state takes its reset value and nothing is answered. -/
theorem test_rst_clears_everything :
    after (step (small 2 0 chih [0] 65535 [⟨true, true, 0x4#4, 0⟩])) = some ((0, 0xC000, 0, 0), none) ∧
    cellsAfter (step (small 2 0 chih [0] 65535 [⟨true, true, 0x4#4, 0⟩])) = some [] := by decide

theorem test_nothing_offered_holds : nextOf (step (small 2 0 chih [])) = some (small 2 0 chih []) := by decide

/-- The first step after reset runs a placed unit instruction (log 9). -/
theorem test_withFetchWord_runs_unit_first :
    after (step (State.reset.withFetchWord 16 0x4000)) = some ((1, 0x4000, 1, 1), some ⟨.ok, 0x4000⟩) := by decide

theorem test_withFetchWord_runs_run_first :
    after (step (State.reset.withFetchWord 16 0x8003)) = some ((0, 0xC000, 0, 3), some ⟨.ok, 0⟩) := by decide

theorem test_withFetchWord_runs_command_first :
    after (step (State.reset.withFetchWord 24 0x50009)) = some ((9, 0xC000, 0, 0), some ⟨.ok, 0⟩) := by decide

/-! ### The source's contracts and the host's text (vectors 2.2; R92 to R94) -/

/-- `[Compute(0), Halt(2), IoWait(1)]` is `C H H I H`. -/
theorem test_construct_halts_inside :
    (construct [⟨.compute, 0⟩, ⟨.halt, 2⟩, ⟨.ioWait, 1⟩]).map (Run.word Config.default) =
      [0x0000, 0x8000, 0x8000, 0x4000, 0x8000] := by decide

/-- `[]` is one Halt, and `[Halt(3)]` gets none added. -/
theorem test_construct_edges :
    (construct []).map (Run.word Config.default) = [0x8000] ∧
    (construct [⟨.halt, 3⟩]).map (Run.word Config.default) = [0x8000, 0x8000, 0x8000] := by decide

/-- `Compute(20000)` is `3FFF 0E21`. -/
theorem test_assemble_splits : assemble Config.default [⟨.compute, 20000⟩] = [0x3FFF, 0x0E21] := by decide

/-- `[Compute(5), IoWait(2), Compute(3)]` as text and as words `0005 4002 0003`. -/
theorem test_parse_program :
    (parseProgram ['[', 'C', 'o', 'm', 'p', 'u', 't', 'e', '(', '5', ')', ',', ' ', 'I', 'o', 'W', 'a', 'i', 't', '(',
      '2', ')', ',', ' ', 'C', 'o', 'm', 'p', 'u', 't', 'e', '(', '3', ')', ']']).map (assemble Config.default) =
      some [0x0005, 0x4002, 0x0003] := by decide

theorem test_show_program_parses_back :
    parseProgram (showProgram [⟨.halt, 10⟩, ⟨.ioWait, 0⟩]) = some [⟨.halt, 10⟩, ⟨.ioWait, 0⟩] ∧
    parseProgram ['[', ']'] = some [] ∧ parseProgram ['[', 'H', 'a', 'l', 't', '(', ')', ']'] = none := by decide

theorem test_display :
    displayWord Config.default 0x0005 = some ['C', 'o', 'm', 'p', 'u', 't', 'e', '(', '5', ')'] ∧
    displayWord Config.default 0x8000 = some ['H', 'a', 'l', 't'] ∧ displayWord Config.default 0xC000 = some ['N', 'O', 'N', 'E'] := by decide

/-- Source: the examples of `30_encoding.md` R92. -/
theorem test_commands_in_assembly :
    showInstr Config.default (.xrRun 0x0005) = ['X', 'R', '_', 'R', 'U', 'N', ' ', '0', 'x', '0', '0', '0', '5'] ∧
    showInstr Config.default (.step 7) = ['S', 'T', 'E', 'P'] ∧
    showInstr Config.default (.pcLoad 9) = ['P', 'C', '_', 'L', 'O', 'A', 'D', ' ', '9'] ∧
    showInstr Config.default (.fetch 10) = ['F', 'E', 'T', 'C', 'H', ' ', '1', '0'] := by decide

/-! ### Witnesses: states and operands that meet a statement's hypotheses -/

/-- Committed `C H`, pending `I`: a state that meets the invariant for every 16-bit PC, capacity from 3 up and inputs. -/
def ch (pc : Nat) (cap : Nat) (ps : List PortsIn := []) : State :=
  small pc 0x4000 [0x0000, 0x8000] [0x4000] cap ps

theorem ch_inv {pc : Nat} (hpc : pc < 65536) {cap : Nat} (h : 3 ≤ cap) (h' : cap ≤ 65535) (ps : List PortsIn) : Inv (ch pc cap ps) where
  params := ⟨(by decide : 1 ≤ 14), (by decide : 1 ≤ 16), by show 1 ≤ cap; omega, h'⟩
  pc_width := hpc
  len_le_wp := (by decide : 2 ≤ 3)
  wp_le_cap := h
  cells_wf := (by decide : Memory.wf [(0, 0x0000), (1, 0x8000), (2, 0x4000)])
  cells_unit a ha := by
    have ha : a < 3 := ha
    match a with
    | 0 => exact ⟨_, rfl, .inl rfl⟩
    | 1 => exact ⟨_, rfl, .inr (.inr rfl)⟩
    | 2 => exact ⟨_, rfl, .inr (.inl rfl)⟩
    | a + 3 => omega
  cells_end a ha := by
    have ha : 3 ≤ a := ha
    show Memory.read [(0, 0x0000), (1, 0x8000), (2, 0x4000)] a = none
    simp only [Memory.read_cons, Memory.read_nil]
    rw [if_neg (by omega), if_neg (by omega), if_neg (by omega)]
  closed _ := rfl
  ir_legal := .inr (.inr rfl)

theorem witness_DecodeEncodeRoundTrip :
    (Instr.runHalt 16383).wellFormed Config.default = true ∧ (Instr.xrEnd 0xFFFF).wellFormed Config.default = true := by decide

theorem witness_DecodedInstructionEncodesBack :
    decode Config.default (.run 0xBFFF) = .ok (.runHalt 16383) ∧ decode Config.default (.unit 0x8000) = .ok .halt ∧
    decode Config.default (.command 0xAFFFF) = .ok (.rdLen 0xFFFF) := by decide

theorem witness_StepRunsTheDecodedCommand :
    decode Config.default (.command (commandWord Config.default 0x4#4 7)) = .ok (.step 7) ∧
    (ch 0 8 [cmd 0x4#4 7]).inputs = [cmd 0x4#4 7] ∧ (cmd 0x4#4 7).rst = false ∧
    (cmd 0x4#4 7).cmdValid = true ∧ idle.rst = false ∧ idle.cmdValid = false ∧ (ch 0 8 [idle]).inputs = [idle] ∧
    (ch 0 8).inputs = [] := by decide

theorem witness_ReservedEncodingsAreRejected :
    0xFFFF < 2 ^ Config.default.wordW ∧ 2 ^ Config.default.wordW ≤ 0x10000 ∧
    2 ^ (4 + Config.default.argW) ≤ 0x100000 := by decide

theorem witness_FetchWordRunsNext :
    decodeTableWord 16 0x0000 = some .compute ∧ decodeTableWord 16 0x4001 = some (.runIoWait 1) ∧
    decodeTableWord 16 0xBFFF = some (.runHalt 16383) ∧ decodeTableWord 24 0xAFFFF = some (.rdLen 0xFFFF) := by decide

theorem witness_StepAndXrRunExecuteTheirInstruction :
    ((ch 1 8).pc < (ch 1 8).len ∧
      Memory.read (ch 1 8).cells (ch 1 8).pc = some 0x8000 ∧
      decode Config.default (.unit 0x8000) = .ok .halt) ∧
    decode Config.default (.run 0x4000) = .ok (.runIoWait 0) := by decide

/-- Both ends of the reserved codes. -/
theorem witness_ReservedCommandIsIllegalCommand :
    (cmd 0x0#4 1).cmd = 0x0#4 ∧ 0xB#4 ≤ (cmd 0xB#4 1).cmd ∧ 0xB#4 ≤ (cmd 0xF#4 1).cmd ∧
    (cmd 0xF#4 1).rst = false ∧ (cmd 0xF#4 1).cmdValid = true ∧
    (cmd 0xF#4 1).cmd.toNat < 2 ^ (ch 0 8).cfg.argW := by decide

/-- The only kind of port a code does not fit. -/
theorem witness_ReservedCommandOnANarrowPort :
    (0xB#4 : BitVec 4) ≤ (cmd 0xF#4 1).cmd ∧ (cmd 0xF#4 1).rst = false ∧ (cmd 0xF#4 1).cmdValid = true ∧
    smallest.ok ∧ 2 ^ (State.resetAt smallest).cfg.argW ≤ (cmd 0xF#4 1).cmd.toNat := by decide

theorem witness_ResetValues :
    ∃ (s : State) (p : PortsIn), s.inputs = [p] ∧ p.rst = true ∧ p.cmdValid = true :=
  ⟨ch 0 8 [⟨true, true, 0x4#4, 0⟩], _, rfl, rfl, rfl⟩

/-- The last committed PC, and the first that is not. -/
theorem witness_StepResult :
    ((ch 1 8).pc < (ch 1 8).len ∧
      Memory.read (ch 1 8).cells (ch 1 8).pc = some 0x8000 ∧ IsUnitWord Config.default 0x8000) ∧
    (ch 2 8).len ≤ (ch 2 8).pc := by decide

/-- For the statements whose only hypothesis is the invariant. -/
theorem witness_HaltDoesNotStopTheSequencer : Inv (ch 1 8) := ch_inv (by decide) (by decide) (by decide) _
theorem witness_ReadCommandsAnswerTheirRegister : Inv (ch 1 8) := ch_inv (by decide) (by decide) (by decide) _
theorem witness_StepNeverStops : Inv (ch 0 8 [cmd 0x2#4 0]) := ch_inv (by decide) (by decide) (by decide) _
theorem witness_LoadIsAllOrNothing : Inv (ch 0 3) := ch_inv (by decide) (by decide) (by decide) _
theorem witness_DumpListsCommittedMemory : Inv (ch 0 65535) := ch_inv (by decide) (by decide) (by decide) _

/-- Two states that agree on PC, IR, LEN and CELL[PC] and differ elsewhere, and an idle sample. -/
theorem witness_StepDependsOnItsInputsAlone :
    ∃ s u t v : State, s ≠ u ∧ u.pc = s.pc ∧ u.ir = s.ir ∧ u.len = s.len ∧
      u.cfg = s.cfg ∧ Memory.read u.cells s.pc = Memory.read s.cells s.pc ∧ exec (.step 1) s = .next t ∧
      v.inputs = [idle] ∧ idle.rst = false ∧ idle.cmdValid = false :=
  ⟨ch 0 8, small 0 0x4000 [0x0000, 0x4000] [] 8, (ch 0 8).stepOver 0x0000, ch 0 8 [idle],
    by decide, rfl, rfl, rfl, rfl, rfl, rfl, rfl, rfl, rfl⟩

/-- A state that steps on, and one, reached in no run, whose committed cell is absent. -/
theorem witness_StepDelayHasNoEffect :
    (∃ t, step (ch 0 8 [cmd 0x4#4 0]) = .next t) ∧
    (∃ f, step { ch 0 8 [cmd 0x4#4 0] with cells := [] } = .fault f) :=
  ⟨⟨_, rfl⟩, ⟨_, rfl⟩⟩

/-- The largest count of a word, the run that exactly fills the store, the run one cell too long. -/
theorem witness_RunInstructionsResult :
    16383 ≤ (ch 0 8).cfg.maxRepeat ∧
    (ch 0 8).wp + max 5 1 ≤ (ch 0 8).cfg.memCells ∧
    (ch 0 3).cfg.memCells < (ch 0 3).wp + max 0 1 := by decide

/-- A Halt run and a Compute run, each with room for the closing Halt. -/
theorem witness_LastRunDecidesTheClosingHalt :
    (ch 0 8).len ≤ (ch 0 8).wp ∧
    (ch 0 8).wp + max 4 1 ≤ (ch 0 8).cfg.memCells ∧
    (∃ t, exec (.runHalt 4) (ch 0 8) = .next t) ∧
    (∃ t, exec (.runCompute 4) (ch 0 8) = .next t ∧ t.wp + 1 ≤ (ch 0 8).cfg.memCells) :=
  ⟨by decide, by decide, ⟨_, rfl⟩, ⟨_, rfl, by decide⟩⟩

/-- A reserved kind in a full store, a run one cell too long, a run that exactly fits, and a run word in the low bits of a wider
argument. -/
theorem witness_XrRunResult :
    (0xC000 = 0xC000 % 2 ^ (2 + (ch 0 3).cfg.repeatW) ∧ 0xC000 / 2 ^ (ch 0 3).cfg.repeatW = 3) ∧
    (0x0000 / 2 ^ (ch 0 3).cfg.repeatW ≠ 3 ∧
      (ch 0 3).cfg.memCells < (ch 0 3).wp + max (0x0000 % 2 ^ (ch 0 3).cfg.repeatW) 1) ∧
    (0xBFFF / 2 ^ (ch 0 16386).cfg.repeatW ≠ 3 ∧
      (ch 0 16386).wp + max (0xBFFF % 2 ^ (ch 0 16386).cfg.repeatW) 1 ≤ (ch 0 16386).cfg.memCells) ∧
    0x4001 = 0x34001 % 2 ^ (2 + (ch 0 3).cfg.repeatW) := by decide

/-- Pending ends in a Halt; it does not and the Halt exactly fits; nothing pending; it does not fit. -/
theorem witness_XrEndResult :
    (∃ s : State, s.len < s.wp ∧ Memory.read s.cells (s.wp - 1) = some 0x8000 ∧ 0x8000 / 2 ^ s.cfg.repeatW % 4 = 2) ∧
    (Memory.read (ch 0 4).cells ((ch 0 4).wp - 1) = some 0x4000 ∧
      0x4000 / 2 ^ (ch 0 4).cfg.repeatW % 4 ≠ 2 ∧ (ch 0 4).wp + 1 ≤ (ch 0 4).cfg.memCells) ∧
    (¬ State.reset.len < State.reset.wp ∧ State.reset.wp + 1 ≤ State.reset.cfg.memCells) ∧
    (Memory.read (ch 0 3).cells ((ch 0 3).wp - 1) = some 0x4000 ∧ (ch 0 3).cfg.memCells < (ch 0 3).wp + 1) :=
  ⟨⟨small 0 0xC000 [] [0x8000] 8, by decide⟩, by decide, by decide, by decide⟩

theorem witness_RouterLeavesSequencerAlone :
    (ch 0 8).len ≤ (ch 0 8).wp ∧ (∃ t, exec (.runHalt 2) (ch 0 8) = .next t) ∧
    (∃ t, exec (.xrRun 0xC000) (ch 0 8) = .next t) ∧ (∃ t, exec (.xrEnd 0) (ch 0 8) = .next t) ∧
    (∃ t, exec (.xrAbort 0) (ch 0 8) = .next t) :=
  ⟨by decide, ⟨_, rfl⟩, ⟨_, rfl⟩, ⟨_, rfl⟩, ⟨_, rfl⟩⟩

/-- The last committed address, LEN itself, where a pending cell stands, and an argument above a narrow address. -/
theorem witness_FetchResult :
    (1 = 1 % 2 ^ (ch 0 8).cfg.addrW ∧ 1 < (ch 0 8).len ∧ Memory.read (ch 0 8).cells 1 = some 0x8000 ∧
      IsUnitWord (ch 0 8).cfg 0x8000) ∧
    (2 = 2 % 2 ^ (ch 0 8).cfg.addrW ∧ (ch 0 8).len ≤ 2) ∧
    0x34 = 0x1234 % 2 ^ narrow.addrW := by decide

/-- Arguments that differ above the run word, above the address, above the port. -/
theorem witness_IgnoredArgumentHasNoEffect :
    0x4002 % 2 ^ (ch 0 8).cfg.wordW = 0x14002 % 2 ^ (ch 0 8).cfg.wordW ∧
    0x0001 % 2 ^ (ch 0 8).cfg.addrW = 0x10001 % 2 ^ (ch 0 8).cfg.addrW ∧
    0x0009 % 2 ^ (ch 0 8).cfg.argW = 0x10009 % 2 ^ (ch 0 8).cfg.argW := by decide

/-- An instruction that changes each element, and a reserved command. -/
theorem witness_OnlyTheListedWriters :
    (ch 0 8).len ≤ (ch 0 8).wp ∧
    (∃ t, exec (.step 0) (ch 0 8) = .next t ∧ t.pc ≠ (ch 0 8).pc ∧ t.ir ≠ (ch 0 8).ir) ∧
    (∃ t, exec (.xrEnd 0) (ch 0 8) = .next t ∧ t.len ≠ (ch 0 8).len ∧ t.wp ≠ (ch 0 8).wp ∧
      Memory.read t.cells 3 ≠ Memory.read (ch 0 8).cells 3 ∧ Memory.read t.cells 3 ≠ none) ∧
    (∃ t, exec (.rdIr 0) (ch 0 8) = .next t) ∧
    (∃ t, step (ch 0 8 [cmd 0xB#4 0]) = .next t) :=
  ⟨by decide, ⟨_, rfl, by decide, by decide⟩, ⟨_, rfl, by decide, by decide, by decide, by decide⟩, ⟨_, rfl⟩, ⟨_, rfl⟩⟩

/-- A command for each STATUS. -/
theorem witness_EveryCommandAnswersOnce :
    (after (step (ch 2 3 [cmd 0x4#4 0]))).bind Prod.snd = some ⟨.outOfRange, 2⟩ ∧
    (after (step (ch 0 3 [cmd 0x7#4 2]))).bind Prod.snd = some ⟨.outOfRange, 2⟩ ∧
    (after (step (ch 0 3 [cmd 0x2#4 0]))).bind Prod.snd = some ⟨.storeFull, 2⟩ ∧
    (after (step (ch 0 3 [cmd 0x1#4 0xC000]))).bind Prod.snd = some ⟨.illegalRun, 0xC000⟩ ∧
    (after (step (ch 0 3 [cmd 0x0#4 5]))).bind Prod.snd = some ⟨.illegalCommand, 0⟩ ∧
    (after (step (ch 0 3 [cmd 0xA#4 5]))).bind Prod.snd = some ⟨.ok, 2⟩ := by decide

/-- A STEP in range, a STEP at LEN, and RST. -/
theorem witness_OnlySuccessfulStepsAreTraced :
    ((∃ t, step (ch 1 8 [cmd 0x4#4 0]) = .next t) ∧ (ch 1 8).pc < (ch 1 8).len) ∧
    ((∃ t, step (ch 2 8 [cmd 0x4#4 0]) = .next t) ∧ (ch 2 8).len ≤ (ch 2 8).pc) ∧
    (∃ t, step (ch 0 8 [⟨true, true, 0x4#4, 0⟩]) = .next t) :=
  ⟨⟨⟨_, rfl⟩, by decide⟩, ⟨⟨_, rfl⟩, by decide⟩, ⟨_, rfl⟩⟩

theorem witness_PortsShowWhatAStepPutsOut : ∃ t, step (ch 1 8 [cmd 0x4#4 0]) = .next t := ⟨_, rfl⟩

/-- A StoreFull and an OutOfRange. -/
theorem witness_FaultsChangeNothingButPending :
    (∃ t, step (ch 0 3 [cmd 0x2#4 0]) = .next t ∧
      t.responses = (ch 0 3).responses ++ [⟨.storeFull, 2⟩] ∧ Status.storeFull ≠ .ok) ∧
    (∃ t, step (ch 2 3 [cmd 0x4#4 0]) = .next t ∧
      t.responses = (ch 2 3).responses ++ [⟨.outOfRange, 2⟩] ∧ Status.outOfRange ≠ .ok) :=
  ⟨⟨_, rfl, rfl, nofun⟩, ⟨_, rfl, rfl, nofun⟩⟩

/-- Another pending program over the same committed cells. -/
theorem witness_PendingProgramIsInvisible :
    ∃ m : Memory, (∀ a, a < (ch 0 8).len → Memory.read m a = Memory.read (ch 0 8).cells a) ∧
      m ≠ (ch 0 8).cells ∧ ∃ t, exec (.step 0) (ch 0 8) = .next t :=
  ⟨[(0, 0x0000), (1, 0x8000)], by decide, by decide, ⟨_, rfl⟩⟩

theorem witness_CommitIsSeenByTheNextFetch :
    Inv (ch 0 8) ∧ (∃ t, exec (.xrEnd 0) (ch 0 8) = .next t ∧
      t.responses = (ch 0 8).responses ++ [⟨.ok, (ch 0 8).len⟩] ∧ 2 < t.len ∧
      3 + 1 = t.len) ∧ (ch 0 8).len ≤ 2 ∧ 2 < (ch 0 8).wp :=
  ⟨ch_inv (by decide) (by decide) (by decide) _, ⟨_, rfl, rfl, by decide, by decide⟩, by decide, by decide⟩

theorem witness_OutOfRangeIsCuredByACommit :
    Inv (ch 2 8) ∧ (ch 2 8).len ≤ (ch 2 8).pc ∧
    ∃ c, exec (.xrEnd 0) ((ch 2 8).respond .outOfRange 2) = .next c ∧ (ch 2 8).pc < c.len :=
  ⟨ch_inv (by decide) (by decide) (by decide) _, by decide, ⟨_, rfl, by decide⟩⟩

theorem witness_StepKeepsInvariant :
    Inv (ch 0 8 [cmd 0x2#4 0]) ∧ ∃ t, step (ch 0 8 [cmd 0x2#4 0]) = .next t :=
  ⟨ch_inv (by decide) (by decide) (by decide) _, ⟨_, rfl⟩⟩

/-- A store in the canonical form that no run reaches, and a step that writes it. -/
theorem witness_StepKeepsCanonicalStore :
    ∃ s : State, Memory.wf s.cells ∧ (∃ t, step s = .next t ∧ t.cells ≠ s.cells) ∧ Memory.read s.cells 9 = some 5 :=
  ⟨{ ch 0 8 [cmd 0x1#4 2] with cells := [(1, 0x8000), (9, 5)] }, by decide, ⟨_, rfl, by decide⟩, rfl⟩

theorem witness_ResetMeetsInvariant : Config.default.ok ∧ narrow.ok ∧ wideAddr.ok ∧ smallest.ok := by decide

theorem witness_OutputsFitTheirPorts :
    Inv (ch 1 8 [cmd 0x4#4 0]) ∧ ∃ t, step (ch 1 8 [cmd 0x4#4 0]) = .next t :=
  ⟨ch_inv (by decide) (by decide) (by decide) _, ⟨_, rfl⟩⟩

theorem witness_CommittedCellsNeverChange :
    Inv (ch 0 8 [cmd 0x2#4 0]) ∧ (∀ p ps, (ch 0 8 [cmd 0x2#4 0]).inputs = p :: ps → p.rst = false) ∧
    ∃ t, step (ch 0 8 [cmd 0x2#4 0]) = .next t ∧ (ch 0 8).len < t.len :=
  ⟨ch_inv (by decide) (by decide) (by decide) _, fun p ps h => by cases h; rfl, ⟨_, rfl, by decide⟩⟩

/-- A tape that ends in a Halt, one that does not, and the empty one. -/
theorem witness_ConstructClosesTheTape :
    (∃ u, (List.flatMap expand [⟨.compute, 0⟩, ⟨.halt, 2⟩]).getLast? = some u ∧ u.isHalt = true) ∧
    (∀ u, (List.flatMap expand [⟨.halt, 1⟩, ⟨.ioWait, 2⟩]).getLast? = some u → u.isHalt = false) ∧
    (∀ u, (List.flatMap expand []).getLast? = some u → u.isHalt = false) :=
  ⟨⟨_, rfl, rfl⟩, fun u h => by cases h; rfl, fun u h => by cases h⟩

theorem witness_TapeLengthIsTheSum :
    (∃ r, ([⟨.compute, 0⟩, ⟨.halt, 2⟩] : List Run).getLast? = some r ∧ r.kind = .halt) ∧
    (∀ r, ([⟨.halt, 1⟩, ⟨.ioWait, 2⟩] : List Run).getLast? = some r → r.kind ≠ .halt) ∧
    (∀ r, ([] : List Run).getLast? = some r → r.kind ≠ .halt) :=
  ⟨⟨_, rfl, rfl⟩, fun r h => by cases h; nofun, fun r h => by cases h⟩

theorem witness_SplitRunsKeepTheTape : 1 ≤ Config.default.repeatW ∧ 1 ≤ smallest.repeatW := by decide

/-- A load that exactly fills the store. -/
theorem witness_LoadAppendsTheConstructedTape :
    Inv (ch 0 7) ∧ (∀ r ∈ ([⟨.compute, 0⟩, ⟨.ioWait, 3⟩] : List Run), r.rep ≤ (ch 0 7).cfg.maxRepeat) ∧
    (ch 0 7).len + (construct [⟨.compute, 0⟩, ⟨.ioWait, 3⟩]).length ≤ (ch 0 7).cfg.memCells :=
  ⟨ch_inv (by decide) (by decide) (by decide) _, by decide, by decide⟩

theorem witness_StepsWalkTheStore : Inv (ch 0 8) ∧ (ch 0 8).pc + 2 ≤ (ch 0 8).len :=
  ⟨ch_inv (by decide) (by decide) (by decide) _, by decide⟩

/-- In range and out of range. -/
theorem witness_RunEndsAtTheFirstHalt :
    (Inv (ch 1 8) ∧ (ch 1 8).pc < (ch 1 8).len) ∧
    (Inv (ch 2 8) ∧ (ch 2 8).len ≤ (ch 2 8).pc) :=
  ⟨⟨ch_inv (by decide) (by decide) (by decide) _, by decide⟩, ⟨ch_inv (by decide) (by decide) (by decide) _, by decide⟩⟩

end Sys2Proof.Tests
end

/-! SUPPORT. Proofs about the five elements of the state (`10_state.md`): what reset leaves (R31) and who writes each element
(R30). -/

namespace Sys2Proof.Machine

/-! ### What a sample does -/

/-- RST resets, whatever else is on the ports (`70_reset_and_hazards.md` R230, `30_encoding.md` R85; log 16). -/
theorem step_of_rst {s : State} {p : PortsIn} {ps : List PortsIn} (hin : s.inputs = p :: ps) (hr : p.rst = true) :
    step s = .next (s.setInputs ps).hardReset := by
  simp [step, State.sample, hin, PortsIn.request, hr]

/-- Command codes 0 and 11 to 15 are reserved (`30_encoding.md` R86). -/
theorem decodeCommand_of_reserved {cmd : BitVec 4} (h : cmd = 0x0#4 ∨ 0xB#4 ≤ cmd) (arg : Nat) :
    decodeCommand cmd arg = .reject (.reservedCommand cmd) := by
  have hne : ∀ c : BitVec 4, c = 0x0#4 ∨ 0xB#4 ≤ c → c ≠ 0x1#4 ∧ c ≠ 0x2#4 ∧ c ≠ 0x3#4 ∧ c ≠ 0x4#4 ∧ c ≠ 0x5#4 ∧
      c ≠ 0x6#4 ∧ c ≠ 0x7#4 ∧ c ≠ 0x8#4 ∧ c ≠ 0x9#4 ∧ c ≠ 0xA#4 := by decide
  simp [decodeCommand, hne cmd h]

/-- A reserved command code that is taken is an IllegalCommand (`42_host.md` R175). -/
theorem step_of_reserved {s : State} {p : PortsIn} {ps : List PortsIn} (hin : s.inputs = p :: ps) (hr : p.rst = false)
    (hv : p.cmdValid = true) (hc : p.cmd = 0x0#4 ∨ 0xB#4 ≤ p.cmd) :
    step s = .next (takeFault (.illegalCommand p.cmd) (s.setInputs ps)) := by
  simp [step, State.sample, hin, PortsIn.request, PortsIn.takes, PortsIn.cmdReady, hr, hv, decode_command,
    decodeCommand_of_reserved hc]

/-! ### Reset -/

/-- Settles O10: RST and CPU_RESET write the reset values, and NONE is kind code 3 with zeros below
(`10_state.md` R31). -/
theorem resetValues : Obligations.ResetValues := by
  unfold Obligations.ResetValues
  refine ⟨fun c => ⟨rfl, noneWord_eq c, rfl, rfl, fun _ => rfl⟩, ⟨rfl, by decide⟩, ?_, ?_⟩
  · intro s p ps hin hr
    rw [step_of_rst hin hr, ← noneWord_eq]
    rfl
  · intro s arg
    exact ⟨_, rfl, rfl, noneWord_eq s.cfg, rfl, rfl, rfl⟩

/-! ### What leaves the machine as it is -/

theorem sameMachine_setInputs (s : State) (ps : List PortsIn) : SameMachine s (s.setInputs ps) :=
  ⟨rfl, rfl, rfl, rfl, rfl, rfl⟩

theorem sameMachine_respond (s : State) (st : Status) (d : Nat) : SameMachine s (s.respond st d) :=
  ⟨rfl, rfl, rfl, rfl, rfl, rfl⟩

/-- A fault that is not the XR's changes nothing (`60_exceptions.md` R207). -/
theorem sameMachine_takeFault {f : CmdFault} (hf : f.dropsPending = false) (s : State) : SameMachine s (takeFault f s) where
  cfg := takeFault_cfg f s
  pc := takeFault_pc f s
  ir := takeFault_ir f s
  cells := by simp [takeFault_cells, hf]
  len := takeFault_len f s
  wp := by simp [takeFault_wp, hf]

theorem SameMachine.trans {s t u : State} (h : SameMachine s t) (h' : SameMachine t u) : SameMachine s u where
  cfg := h'.cfg.trans h.cfg
  pc := h'.pc.trans h.pc
  ir := h'.ir.trans h.ir
  cells := h'.cells.trans h.cells
  len := h'.len.trans h.len
  wp := h'.wp.trans h.wp

/-! ### The writers of the elements -/

/-- The instructions that R30 lists as writers of pending cells: the runs, XR_RUN and XR_END. -/
def WritesPending (i : Instr) : Prop :=
  (∃ n, i = .runCompute n ∨ i = .runIoWait n ∨ i = .runHalt n) ∨ ∃ w, i = .xrRun w ∨ i = .xrEnd w

theorem writesPending_runInstr (k : Kind) (n : Nat) : WritesPending (k.runInstr n) := by
  cases k with
  | compute => exact .inl ⟨n, .inl rfl⟩
  | ioWait => exact .inl ⟨n, .inr (.inl rfl)⟩
  | halt => exact .inl ⟨n, .inr (.inr rfl)⟩

theorem writesPending_xrRun (w : Nat) : WritesPending (.xrRun w) := .inr ⟨w, .inl rfl⟩

theorem writesPending_xrEnd (w : Nat) : WritesPending (.xrEnd w) := .inr ⟨w, .inr rfl⟩

/-- What an instruction of the XR may change: WP and the pending cells, and LEN if it is XR_END. -/
structure RouterFrame (s : State) (i : Instr) (t : State) : Prop where
  instr     : WritesPending i ∨ ∃ a, i = .xrAbort a
  pc        : t.pc = s.pc
  ir        : t.ir = s.ir
  len       : t.len = s.len ∨ ∃ a, i = .xrEnd a
  committed : ∀ a, a < s.len → Memory.read t.cells a = Memory.read s.cells a
  pending   : ∀ a, s.len ≤ a → Memory.read t.cells a ≠ none → WritesPending i

/-- Dropping the pending program leaves no cell at or above LEN, so it writes none. -/
theorem PendingDropped.routerFrame {st : Status} {d : Nat} {s t : State} {i : Instr} (h : PendingDropped st d s t)
    (hi : WritesPending i ∨ ∃ a, i = .xrAbort a) : RouterFrame s i t where
  instr := hi
  pc := h.pc
  ir := h.ir
  len := .inl h.len
  committed := h.committed
  pending a ha hne := absurd (h.dropped a ha) hne

/-- Appending writes from WP on, which is above the committed cells. -/
theorem append_routerFrame {s : State} {i : Instr} (hle : s.len ≤ s.wp) (hi : WritesPending i) (k : Kind) (m : Nat) :
    RouterFrame s i (s.append k m) where
  instr := .inl hi
  pc := rfl
  ir := rfl
  len := .inl rfl
  committed a ha := (append_appended s k m).others a (.inl (Nat.lt_of_lt_of_le ha hle))
  pending _ _ _ := hi

/-- A response is no element of the machine. -/
theorem RouterFrame.respond {s t : State} {i : Instr} (h : RouterFrame s i t) (st : Status) (d : Nat) :
    RouterFrame s i (t.respond st d) where
  instr := h.instr
  pc := h.pc
  ir := h.ir
  len := h.len
  committed := h.committed
  pending := h.pending

/-- A commit moves LEN and no cell, so XR_END adds it to whatever the XR did before. -/
theorem RouterFrame.commit {s t : State} {a : Nat} (h : RouterFrame s (.xrEnd a) t) :
    RouterFrame s (.xrEnd a) t.commit where
  instr := h.instr
  pc := h.pc
  ir := h.ir
  len := .inr ⟨a, rfl⟩
  committed := h.committed
  pending := h.pending

theorem routerFrame_self {i : Instr} (hi : WritesPending i) (s : State) : RouterFrame s i s where
  instr := .inl hi
  pc := rfl
  ir := rfl
  len := .inl rfl
  committed _ _ := rfl
  pending _ _ _ := hi

/-- R30's table by the unit that writes: the sequencer steps over a unit instruction, the XR keeps to its frame, PC_LOAD and
CPU_RESET set registers, and every other outcome writes nothing. -/
inductive Writes (s : State) (i : Instr) (t : State) : Prop where
  | stepOver (k : Kind)
      (hi : i = k.unitInstr ∨
        (s.pc < s.len ∧ Memory.read s.cells s.pc = some (k.unitWord s.cfg) ∧ ∃ a, i = .step a))
      (ht : t = s.stepOver (k.unitWord s.cfg))
  | router (h : RouterFrame s i t)
  | pcLoad (a : Nat) (hi : i = .pcLoad a) (ht : t = (s.setPc (s.addrOperand a)).respond .ok 0)
  | cpuReset (a : Nat) (hi : i = .cpuReset a) (ht : t = ((s.setPc 0).setIr (noneWord s.cfg)).respond .ok 0)
  | nothing (h : SameMachine s t)

/-- Every effect of an instruction keeps to R30's table, where LEN is at most WP. -/
theorem Effect.writes {s t : State} {i : Instr} (hle : s.len ≤ s.wp) (h : Effect s i t) : Writes s i t := by
  have run_writes : ∀ {k : Kind} {n : Nat}, (i = k.runInstr n ∨
      ∃ w, i = .xrRun w ∧ runOfWord s.cfg (s.runOperand w) = some (k, n)) → WritesPending i := by
    rintro k n (rfl | ⟨w, rfl, -⟩)
    · exact writesPending_runInstr k n
    · exact writesPending_xrRun w
  cases h with
  | unit k hi ht => exact .stepOver k (.inl hi) ht
  | step a k hi hm ht =>
    obtain ⟨hlt, hcell⟩ := memRead_cell_iff.1 hm
    exact .stepOver k (.inr ⟨hlt, hcell, a, hi⟩) ht
  | stepOut a hi ho ht => exact .nothing (ht ▸ sameMachine_takeFault rfl s)
  | run k n hi hf ht => exact .router (ht ▸ (append_routerFrame hle (run_writes hi) k _).respond .ok 0)
  | runFull k n hi hf ht => exact .router (ht ▸ (storeFull_dropped s).routerFrame (.inl (run_writes hi)))
  | runIllegal w hi hw ht =>
    subst hi ht
    exact .router ((illegalRun_dropped s _).routerFrame (.inl (writesPending_xrRun w)))
  | xrEnd a hi hp ht =>
    subst hi ht
    exact .router (routerFrame_self (writesPending_xrEnd a) s).commit
  | xrEndHalt a hi hp hf ht =>
    subst hi ht
    exact .router (append_routerFrame hle (writesPending_xrEnd a) .halt 1).commit
  | xrEndFull a hi hp hf ht =>
    subst hi ht
    exact .router ((storeFull_dropped s).routerFrame (.inl (writesPending_xrEnd a)))
  | xrAbort a hi ht => exact .router (ht ▸ (dropPending_dropped s .ok 0).routerFrame (.inr ⟨a, hi⟩))
  | pcLoad a hi ht => exact .pcLoad a hi ht
  | cpuReset a hi ht => exact .cpuReset a hi ht
  | fetch a k hi hm ht => exact .nothing (ht ▸ sameMachine_respond s _ _)
  | fetchOut a hi ho ht => exact .nothing (ht ▸ sameMachine_takeFault rfl s)
  | rdPc a hi ht => exact .nothing (ht ▸ sameMachine_respond s _ _)
  | rdIr a hi ht => exact .nothing (ht ▸ sameMachine_respond s _ _)
  | rdLen a hi ht => exact .nothing (ht ▸ sameMachine_respond s _ _)

/-! ### Element by element -/

theorem Writes.pc {s t : State} {i : Instr} (h : Writes s i t) (hne : t.pc ≠ s.pc) :
    ((i = .compute ∨ i = .ioWait ∨ i = .halt ∨ (s.pc < s.len ∧ ∃ a, i = .step a)) ∧ t.pc = s.pc + 1) ∨
      ∃ a, i = .pcLoad a ∨ i = .cpuReset a := by
  cases h with
  | stepOver k hi ht =>
    refine .inl ⟨?_, by rw [ht, stepOver_pc]⟩
    obtain rfl | ⟨hlt, -, hstep⟩ := hi
    · cases k <;> simp [Kind.unitInstr]
    · exact .inr (.inr (.inr ⟨hlt, hstep⟩))
  | router h => exact absurd h.pc hne
  | pcLoad a hi ht => exact .inr ⟨a, .inl hi⟩
  | cpuReset a hi ht => exact .inr ⟨a, .inr hi⟩
  | nothing h => exact absurd h.pc hne

theorem Writes.ir {s t : State} {i : Instr} (h : Writes s i t) (hne : t.ir ≠ s.ir) :
    i = .compute ∨ i = .ioWait ∨ (∃ a, i = .cpuReset a) ∨
      ∃ a w, i = .step a ∧ s.pc < s.len ∧ Memory.read s.cells s.pc = some w ∧ isHalt s.cfg w = false := by
  cases h with
  | stepOver k hi ht =>
    have hk : isHalt s.cfg (k.unitWord s.cfg) = false := by
      rw [Bool.eq_false_iff]
      intro hk
      rw [ht, stepOver_ir, if_pos hk] at hne
      exact hne rfl
    obtain rfl | ⟨hlt, hcell, a, rfl⟩ := hi
    · cases k with
      | compute => exact .inl rfl
      | ioWait => exact .inr (.inl rfl)
      | halt => simp at hk
    · exact .inr (.inr (.inr ⟨a, _, rfl, hlt, hcell, hk⟩))
  | router h => exact absurd h.ir hne
  | pcLoad a hi ht => exact absurd (congrArg State.ir ht) hne
  | cpuReset a hi ht => exact .inr (.inr (.inl ⟨a, hi⟩))
  | nothing h => exact absurd h.ir hne

/-- Outside the XR no cell is touched, and LEN and WP stay. -/
theorem Writes.router_or_store {s t : State} {i : Instr} (h : Writes s i t) :
    RouterFrame s i t ∨ (t.cells = s.cells ∧ t.len = s.len ∧ t.wp = s.wp) := by
  cases h with
  | stepOver k hi ht => exact .inr (by simp [ht])
  | router h => exact .inl h
  | pcLoad a hi ht => exact .inr (by simp [ht])
  | cpuReset a hi ht => exact .inr (by simp [ht])
  | nothing h => exact .inr ⟨h.cells, h.len, h.wp⟩

theorem Writes.committed {s t : State} {i : Instr} (h : Writes s i t) {a : Nat} (ha : a < s.len) :
    Memory.read t.cells a = Memory.read s.cells a := by
  obtain hr | ⟨hcells, -, -⟩ := h.router_or_store
  · exact hr.committed a ha
  · rw [hcells]

theorem Writes.pending {s t : State} {i : Instr} (h : Writes s i t) {a : Nat} (ha : s.len ≤ a)
    (hne : Memory.read t.cells a ≠ Memory.read s.cells a) (hsome : Memory.read t.cells a ≠ none) : WritesPending i := by
  obtain hr | ⟨hcells, -, -⟩ := h.router_or_store
  · exact hr.pending a ha hsome
  · exact absurd (by rw [hcells]) hne

theorem Writes.len {s t : State} {i : Instr} (h : Writes s i t) (hne : t.len ≠ s.len) : ∃ a, i = .xrEnd a := by
  obtain hr | ⟨-, hlen, -⟩ := h.router_or_store
  · exact hr.len.resolve_left hne
  · exact absurd hlen hne

theorem Writes.wp {s t : State} {i : Instr} (h : Writes s i t) (hne : t.wp ≠ s.wp) :
    WritesPending i ∨ ∃ a, i = .xrAbort a := by
  obtain hr | ⟨-, -, hwp⟩ := h.router_or_store
  · exact hr.instr
  · exact absurd hwp hne

/-- The read commands answer, and FETCH may answer OutOfRange; none of them writes (R30). -/
theorem sameMachine_of_read {s t : State} {i : Instr} (hexec : exec i s = .next t)
    (hi : ∃ a, i = .fetch a ∨ i = .rdPc a ∨ i = .rdIr a ∨ i = .rdLen a) : SameMachine s t := by
  obtain ⟨a, rfl | rfl | rfl | rfl⟩ := hi
  · simp only [exec, execFetch] at hexec
    split at hexec
    · cases hexec; exact sameMachine_takeFault rfl s
    · cases hexec
    · cases hexec; exact sameMachine_respond s _ _
  · cases hexec; exact sameMachine_respond s _ _
  · cases hexec; exact sameMachine_respond s _ _
  · cases hexec; exact sameMachine_respond s _ _

/-- Settles O29, by R30's table: each outcome of an instruction is one of `Writes`, read off element by element. -/
theorem onlyTheListedWriters : Obligations.OnlyTheListedWriters := by
  unfold Obligations.OnlyTheListedWriters
  constructor
  · intro i s t hle hexec
    have h := (exec_effect hexec).writes hle
    refine ⟨h.pc, h.ir, fun a => h.committed, fun a => h.pending, h.len, fun hne => ?_, sameMachine_of_read hexec⟩
    obtain (hrun | ⟨w, hw⟩) | ⟨w, hw⟩ := h.wp hne
    · exact .inl hrun
    · exact .inr ⟨w, hw.imp_right .inl⟩
    · exact .inr ⟨w, .inr (.inr hw)⟩
  · intro s t p ps hin hr hv hc hstep
    rw [step_of_reserved hin hr hv hc] at hstep
    cases hstep
    exact (sameMachine_setInputs s ps).trans (sameMachine_takeFault rfl _)

end Sys2Proof.Machine

/-! SUPPORT. Proofs about the output ports of a taken command (`30_encoding.md`): its one response (R87) and its trace record
(R88). -/

namespace Sys2Proof.Machine

/-! ### The command a sample offers -/

/-- The rows of R86: a command code, its argument, and the instruction they stand for. -/
inductive CommandRow (a : Nat) : BitVec 4 → Instr → Prop where
  | xrRun    : CommandRow a 0x1#4 (.xrRun a)
  | xrEnd    : CommandRow a 0x2#4 (.xrEnd a)
  | xrAbort  : CommandRow a 0x3#4 (.xrAbort a)
  | step     : CommandRow a 0x4#4 (.step a)
  | pcLoad   : CommandRow a 0x5#4 (.pcLoad a)
  | cpuReset : CommandRow a 0x6#4 (.cpuReset a)
  | fetch    : CommandRow a 0x7#4 (.fetch a)
  | rdPc     : CommandRow a 0x8#4 (.rdPc a)
  | rdIr     : CommandRow a 0x9#4 (.rdIr a)
  | rdLen    : CommandRow a 0xA#4 (.rdLen a)

theorem CommandRow.of_decodeCommand {cmd : BitVec 4} {a : Nat} {i : Instr} (h : decodeCommand cmd a = .ok i) :
    CommandRow a cmd i := by
  simp only [decodeCommand] at h
  split_ifs at h <;> cases h <;> subst cmd <;> constructor

/-- No command is a unit instruction. -/
theorem CommandRow.ne_unitInstr {cmd : BitVec 4} {a : Nat} {i : Instr} (h : CommandRow a cmd i) (k : Kind) :
    i ≠ k.unitInstr := by
  rintro rfl
  cases k <;> cases h

/-- The command that gives the XR a run is XR_RUN. -/
theorem CommandRow.code_of_run {cmd : BitVec 4} {a n : Nat} {i : Instr} {k : Kind} {P : Nat → Prop}
    (h : CommandRow a cmd i) (hi : i = k.runInstr n ∨ ∃ w, i = .xrRun w ∧ P w) : cmd = 0x1#4 := by
  obtain rfl | ⟨w, rfl, -⟩ := hi
  · cases k <;> cases h
  · cases h; rfl

/-- A code that is not reserved decodes (R86). -/
theorem decodeCommand_of_not_reserved {cmd : BitVec 4} (h : ¬(cmd = 0x0#4 ∨ 0xB#4 ≤ cmd)) (a : Nat) :
    ∃ i, decodeCommand cmd a = .ok i := by
  have hcmd : ∀ c : BitVec 4, ¬(c = 0x0#4 ∨ 0xB#4 ≤ c) → c = 0x1#4 ∨ c = 0x2#4 ∨ c = 0x3#4 ∨ c = 0x4#4 ∨
      c = 0x5#4 ∨ c = 0x6#4 ∨ c = 0x7#4 ∨ c = 0x8#4 ∨ c = 0x9#4 ∨ c = 0xA#4 := by decide
  rcases hcmd cmd h with rfl | rfl | rfl | rfl | rfl | rfl | rfl | rfl | rfl | rfl <;> exact ⟨_, rfl⟩

/-- A taken command that decodes is executed with its sample used up (R95). -/
theorem step_of_decodes {s : State} {p : PortsIn} {ps : List PortsIn} {i : Instr} (hin : s.inputs = p :: ps)
    (hr : p.rst = false) (hv : p.cmdValid = true) (hd : decodeCommand p.cmd (p.arg % 2 ^ s.cfg.argW) = .ok i) :
    step s = exec i (s.setInputs ps) := by
  simp [step, State.sample, hin, PortsIn.request, PortsIn.takes, PortsIn.cmdReady, hr, hv, decode_command, hd]

/-- With CMD_VALID low the sample is used up and nothing else happens (R85). -/
theorem step_of_idle {s : State} {p : PortsIn} {ps : List PortsIn} (hin : s.inputs = p :: ps)
    (hr : p.rst = false) (hv : p.cmdValid = false) : step s = .next (s.setInputs ps) := by
  simp [step, State.sample, hin, PortsIn.request, PortsIn.takes, hr, hv]

/-! ### What a command puts on the output ports -/

/-- The tables of R87 and R88 by command code: the response, and the records on the trace port. -/
inductive Outputs (s : State) (arg : Nat) : BitVec 4 → Response → List TraceRecord → Prop where
  | runAppended : Outputs s arg 0x1#4 ⟨.ok, 0⟩ []
  | runFull     : Outputs s arg 0x1#4 ⟨.storeFull, s.len⟩ []
  | runIllegal  : Outputs s arg 0x1#4 ⟨.illegalRun, s.runOperand arg⟩ []
  | committed   : Outputs s arg 0x2#4 ⟨.ok, s.len⟩ []
  | endFull     : Outputs s arg 0x2#4 ⟨.storeFull, s.len⟩ []
  | aborted     : Outputs s arg 0x3#4 ⟨.ok, 0⟩ []
  | stepped (w : Nat) (hpc : s.pc < s.len) (hw : Memory.read s.cells s.pc = some w) :
      Outputs s arg 0x4#4 ⟨.ok, w⟩ [⟨w, s.pc⟩]
  | stepOut (hpc : s.len ≤ s.pc) : Outputs s arg 0x4#4 ⟨.outOfRange, s.pc⟩ []
  | pcLoaded    : Outputs s arg 0x5#4 ⟨.ok, 0⟩ []
  | cpuReset    : Outputs s arg 0x6#4 ⟨.ok, 0⟩ []
  | fetched (w : Nat) (hw : Memory.read s.cells (s.addrOperand arg) = some w) : Outputs s arg 0x7#4 ⟨.ok, w⟩ []
  | fetchOut    : Outputs s arg 0x7#4 ⟨.outOfRange, s.addrOperand arg⟩ []
  | pcRead      : Outputs s arg 0x8#4 ⟨.ok, s.pc⟩ []
  | irRead      : Outputs s arg 0x9#4 ⟨.ok, s.ir⟩ []
  | lenRead     : Outputs s arg 0xA#4 ⟨.ok, s.len⟩ []
  | illegalCommand (cmd : BitVec 4) (hc : cmd = 0x0#4 ∨ 0xB#4 ≤ cmd) :
      Outputs s arg cmd ⟨.illegalCommand, CmdFault.info s (.illegalCommand cmd)⟩ []

/-- From `s` to `t` the histories grow by what the tables give for the command. -/
def PutsOut (s : State) (arg : Nat) (cmd : BitVec 4) (t : State) : Prop :=
  ∃ r recs, t.responses = s.responses ++ [r] ∧ t.trace = s.trace ++ recs ∧ Outputs s arg cmd r recs

theorem PutsOut.untraced {s t : State} {arg : Nat} {cmd : BitVec 4} {r : Response}
    (h : Outputs s arg cmd r []) (hresp : t.responses = s.responses ++ [r]) (htrace : t.trace = s.trace) :
    PutsOut s arg cmd t :=
  ⟨r, [], hresp, by rw [htrace, List.append_nil], h⟩

/-- Every effect of a command is a row of the tables. -/
theorem Effect.putsOut {s t : State} {arg : Nat} {cmd : BitVec 4} {i : Instr}
    (hrow : CommandRow (arg % 2 ^ s.cfg.argW) cmd i) (h : Effect s i t) : PutsOut s arg cmd t := by
  cases h with
  | unit k hi ht => exact absurd hi (hrow.ne_unitInstr k)
  | step a k hi hm ht =>
    subst hi ht; cases hrow
    obtain ⟨hpc, hw⟩ := memRead_cell_iff.1 hm
    exact ⟨_, _, stepOver_responses s _, stepOver_trace s _, .stepped _ hpc hw⟩
  | stepOut a hi ho ht => subst hi ht; cases hrow; exact .untraced (.stepOut ho) rfl rfl
  | run k n hi hf ht => subst ht; obtain rfl := hrow.code_of_run hi; exact .untraced .runAppended rfl rfl
  | runFull k n hi hf ht => subst ht; obtain rfl := hrow.code_of_run hi; exact .untraced .runFull rfl rfl
  | runIllegal w hi hw ht =>
    subst hi ht; cases hrow
    rw [runOperand_mod]
    exact .untraced .runIllegal rfl rfl
  | xrEnd a hi hp ht => subst hi ht; cases hrow; exact .untraced .committed rfl rfl
  | xrEndHalt a hi hp hf ht => subst hi ht; cases hrow; exact .untraced .committed rfl rfl
  | xrEndFull a hi hp hf ht => subst hi ht; cases hrow; exact .untraced .endFull rfl rfl
  | xrAbort a hi ht => subst hi ht; cases hrow; exact .untraced .aborted rfl rfl
  | pcLoad a hi ht => subst hi ht; cases hrow; exact .untraced .pcLoaded rfl rfl
  | cpuReset a hi ht => subst hi ht; cases hrow; exact .untraced .cpuReset rfl rfl
  | fetch a k hi hm ht =>
    subst hi ht; cases hrow
    rw [addrOperand_mod] at hm
    exact .untraced (.fetched _ (memRead_cell_iff.1 hm).2) rfl rfl
  | fetchOut a hi ho ht =>
    subst hi ht; cases hrow
    rw [addrOperand_mod]
    exact .untraced .fetchOut rfl rfl
  | rdPc a hi ht => subst hi ht; cases hrow; exact .untraced .pcRead rfl rfl
  | rdIr a hi ht => subst hi ht; cases hrow; exact .untraced .irRead rfl rfl
  | rdLen a hi ht => subst hi ht; cases hrow; exact .untraced .lenRead rfl rfl

/-- Every taken command, of a reserved code too, puts out what the tables give. -/
theorem putsOut_of_taken {s t : State} {p : PortsIn} {ps : List PortsIn} (hin : s.inputs = p :: ps)
    (hr : p.rst = false) (hv : p.cmdValid = true) (hstep : step s = .next t) :
    PutsOut (s.setInputs ps) p.arg p.cmd t := by
  by_cases hc : p.cmd = 0x0#4 ∨ 0xB#4 ≤ p.cmd
  · rw [step_of_reserved hin hr hv hc] at hstep
    cases hstep
    exact .untraced (.illegalCommand p.cmd hc) rfl rfl
  · obtain ⟨i, hd⟩ := decodeCommand_of_not_reserved hc (p.arg % 2 ^ s.cfg.argW)
    rw [step_of_decodes hin hr hv hd] at hstep
    exact (exec_effect hstep).putsOut (.of_decodeCommand hd)

/-! ### The tables by STATUS -/

section
variable {s : State} {arg : Nat} {cmd : BitVec 4} {r : Response} {recs : List TraceRecord}

theorem Outputs.outOfRange (h : Outputs s arg cmd r recs) (hr : r.status = .outOfRange) :
    (cmd = 0x4#4 ∧ r.data = s.pc) ∨ (cmd = 0x7#4 ∧ r.data = s.addrOperand arg) := by
  cases h with
  | stepOut => exact .inl ⟨rfl, rfl⟩
  | fetchOut => exact .inr ⟨rfl, rfl⟩
  | _ => cases hr

theorem Outputs.storeFull (h : Outputs s arg cmd r recs) (hr : r.status = .storeFull) :
    (cmd = 0x1#4 ∨ cmd = 0x2#4) ∧ r.data = s.len := by
  cases h with
  | runFull => exact ⟨.inl rfl, rfl⟩
  | endFull => exact ⟨.inr rfl, rfl⟩
  | _ => cases hr

theorem Outputs.illegalRun (h : Outputs s arg cmd r recs) (hr : r.status = .illegalRun) :
    cmd = 0x1#4 ∧ r.data = s.runOperand arg := by
  cases h with
  | runIllegal => exact ⟨rfl, rfl⟩
  | _ => cases hr

theorem Outputs.illegalCommand_iff (h : Outputs s arg cmd r recs) :
    r.status = .illegalCommand ↔ cmd = 0x0#4 ∨ 0xB#4 ≤ cmd := by
  cases h with
  | illegalCommand _ hc => exact iff_of_true rfl hc
  | _ => exact iff_of_false nofun (by decide)

/-- The code where it fits DATA, and a value of ARG_W bits anywhere (log 19). -/
theorem Outputs.illegalCommand_data (h : Outputs s arg cmd r recs) (hr : r.status = .illegalCommand) :
    r.data < 2 ^ s.cfg.argW ∧ (cmd.toNat < 2 ^ s.cfg.argW → r.data = cmd.toNat) := by
  cases h with
  | illegalCommand _ _ =>
    simp only [CmdFault.info]
    split
    · rename_i hfits; exact ⟨hfits, fun _ => rfl⟩
    · rename_i hfits; exact ⟨Nat.mod_lt _ (Nat.two_pow_pos _), fun h => absurd h hfits⟩
  | _ => cases hr

/-- The result of each command that completes, 0 where it has none. -/
theorem Outputs.ok_data (h : Outputs s arg cmd r recs) (hr : r.status = .ok) :
    (cmd = 0x1#4 ∨ cmd = 0x3#4 ∨ cmd = 0x5#4 ∨ cmd = 0x6#4 → r.data = 0) ∧
    (cmd = 0x2#4 → r.data = s.len) ∧
    (cmd = 0x4#4 → Memory.read s.cells s.pc = some r.data) ∧
    (cmd = 0x7#4 → Memory.read s.cells (s.addrOperand arg) = some r.data) ∧
    (cmd = 0x8#4 → r.data = s.pc) ∧ (cmd = 0x9#4 → r.data = s.ir) ∧ (cmd = 0xA#4 → r.data = s.len) := by
  cases h with
  | stepped w hpc hw => simp [hw]
  | fetched w hw => simp [hw]
  | runFull | runIllegal | endFull | stepOut | fetchOut | illegalCommand => cases hr
  | _ => simp

theorem Outputs.record_of_step (h : Outputs s arg cmd r recs) (hc : cmd = 0x4#4) (hpc : s.pc < s.len) :
    ∃ w, Memory.read s.cells s.pc = some w ∧ recs = [⟨w, s.pc⟩] := by
  cases h with
  | stepped w _ hw => exact ⟨w, hw, rfl⟩
  | stepOut hout => exact absurd hpc (Nat.not_lt.2 hout)
  | illegalCommand _ hres => subst hc; exact absurd hres (by decide)
  | _ => exact absurd hc (by decide)

theorem Outputs.no_record (h : Outputs s arg cmd r recs) (hq : cmd ≠ 0x4#4 ∨ s.len ≤ s.pc) : recs = [] := by
  cases h with
  | stepped w hpc _ => exact absurd hq (by simpa using hpc)
  | _ => rfl

end

/-! ### The statements -/

/-- Settles O30: the rows of `Outputs` that a taken command can answer by, read off STATUS by STATUS (R87). -/
theorem everyCommandAnswersOnce : Obligations.EveryCommandAnswersOnce := by
  unfold Obligations.EveryCommandAnswersOnce
  refine ⟨⟨rfl, rfl, rfl, rfl, rfl⟩, fun s t p ps hin hr hv hstep => ?_⟩
  obtain ⟨r, recs, hresp, -, hout⟩ := putsOut_of_taken hin hr hv hstep
  exact ⟨r, hresp, hout.outOfRange, hout.storeFull, hout.illegalRun, hout.illegalCommand_iff,
    hout.illegalCommand_data, hout.ok_data⟩

/-- Settles O31: RST and an idle sample emit nothing, and of the rows of `Outputs` only a STEP in range has a record (R88,
R180, R230). -/
theorem onlySuccessfulStepsAreTraced : Obligations.OnlySuccessfulStepsAreTraced := by
  unfold Obligations.OnlySuccessfulStepsAreTraced
  intro s t p ps hin hstep
  constructor
  · intro hr hv hc hpc
    obtain ⟨r, recs, -, htrace, hout⟩ := putsOut_of_taken hin hr hv hstep
    obtain ⟨w, hw, rfl⟩ := hout.record_of_step hc hpc
    exact ⟨w, hw, htrace⟩
  · intro hquiet
    cases hr : p.rst with
    | true => rw [step_of_rst hin hr] at hstep; cases hstep; rfl
    | false =>
      cases hv : p.cmdValid with
      | false => rw [step_of_idle hin hr hv] at hstep; cases hstep; rfl
      | true =>
        obtain ⟨r, recs, -, htrace, hout⟩ := putsOut_of_taken hin hr hv hstep
        have hq : p.cmd ≠ 0x4#4 ∨ s.len ≤ s.pc := by simpa [hr, hv] using hquiet
        rw [hout.no_record hq] at htrace
        simpa using htrace

end Sys2Proof.Machine

/-! SUPPORT. Proofs about the expansion (`40_expansion.md`): the source's `isHalt` and the tape's length (R111, R121), and the
commands XR_RUN, XR_END and XR_ABORT (R114, R118, R119). -/

namespace Sys2Proof.Machine

/-! ### isHalt -/

theorem Run.isHalt_iff {r : Run} : r.isHalt = true ↔ r.kind = .halt := by simp [Run.isHalt]

/-- `isHalt` of a word is a test of its two kind bits (R111). -/
theorem isHalt_iff {c : Config} {w : Nat} : isHalt c w = true ↔ w / 2 ^ c.repeatW % 4 = 2 := by
  rw [isHalt, beq_iff_eq]
  exact kindField_eq_iff

/-- Settles O43: a run's word has the run's kind whatever its count, and the kind is the two bits above the repeat field
(R111). -/
theorem isHaltLooksAtTheKindOnly : Obligations.IsHaltLooksAtTheKindOnly := by
  unfold Obligations.IsHaltLooksAtTheKindOnly
  exact fun c => ⟨fun r => ⟨Run.isHalt_iff, isHalt_runWord c r.kind r.rep⟩, fun _ => isHalt_iff⟩

/-! ### The length of a tape -/

@[simp] theorem length_expand (r : Run) : (expand r).length = runLength r.rep := List.length_replicate

/-- No run expands to nothing, so an expansion has a last unit, of the run's kind (R110). -/
theorem getLast?_expand (r : Run) : (expand r).getLast? = some (Run.unit r.kind) := by
  have hpos : runLength r.rep ≠ 0 := Nat.ne_of_gt (runLength_pos r.rep)
  rw [expand, List.getLast?_replicate, if_neg hpos]

theorem endsInHalt_eq_true_iff {t : List Run} :
    endsInHalt t = true ↔ ∃ r, t.getLast? = some r ∧ r.kind = .halt := by
  rw [endsInHalt]
  cases t.getLast? with
  | none => simp
  | some r => simp [Run.isHalt_iff]

/-- The expanded program ends in a Halt exactly when its last run is a Halt run. -/
theorem endsInHalt_flatMap_expand (rs : List Run) : endsInHalt (rs.flatMap expand) = endsInHalt rs := by
  induction rs using List.reverseRecOn with
  | nil => rfl
  | append_singleton rs r _ => simp [endsInHalt, getLast?_expand, Run.unit, Run.isHalt]

theorem length_closeTape (t : List Run) :
    (closeTape t).length = t.length + if endsInHalt t then 0 else 1 := by
  rw [closeTape]
  split <;> simp

/-- R121 as one equation. -/
theorem length_construct (rs : List Run) :
    (construct rs).length = (rs.map fun r => runLength r.rep).sum + if endsInHalt rs then 0 else 1 := by
  rw [construct, length_closeTape, endsInHalt_flatMap_expand, List.length_flatMap]
  simp only [length_expand]

/-- Settles O46: the closing Halt is added unless the last run, whose kind the last unit has, is a Halt run (R121). -/
theorem tapeLengthIsTheSum : Obligations.TapeLengthIsTheSum := by
  unfold Obligations.TapeLengthIsTheSum
  intro rs
  constructor
  · intro hlast
    rw [length_construct, if_pos (endsInHalt_eq_true_iff.2 hlast)]
    rfl
  · intro hlast
    have hopen : ¬ endsInHalt rs = true := fun h =>
      let ⟨r, hr, hkind⟩ := endsInHalt_eq_true_iff.1 h
      hlast r hr hkind
    rw [length_construct, if_neg hopen]
    rfl

/-! ### XR_RUN -/

/-- A run that fits is appended (R114). -/
theorem appendRun_appended (k : Kind) {n : Nat} {s : State} (h : s.wp + runLength n ≤ s.cfg.memCells) :
    Appended (k.unitWord s.cfg) (runLength n) s (appendRun k n s) := by
  obtain ⟨-, e⟩ | ⟨hfull, -⟩ := appendRun_cases k n s
  · rw [e]; exact append_appended s k (runLength n)
  · omega

/-- A run that does not fit drops the pending program with StoreFull (R114). -/
theorem appendRun_storeFull (k : Kind) {n : Nat} {s : State} (h : s.cfg.memCells < s.wp + runLength n) :
    PendingDropped .storeFull s.len s (appendRun k n s) := by
  obtain ⟨hfits, -⟩ | ⟨-, e⟩ := appendRun_cases k n s
  · omega
  · rw [e]; exact storeFull_dropped s

/-- XR_RUN on a word of the reserved kind is IllegalRun (R114). -/
theorem exec_xrRun_illegal {s : State} {arg : Nat} (h : runOfWord s.cfg (s.runOperand arg) = none) :
    exec (.xrRun arg) s = .next (takeFault (.illegalRun (s.runOperand arg)) s) := by
  simp only [exec, execXrRun, h]

/-- The kind code of a word of WORD_W bits is all of the word above the repeat field (R81). -/
theorem kindField_eq_iff_of_lt {c : Config} {w : Nat} {k : BitVec 2} (hw : w < 2 ^ c.wordW) :
    kindField c w = k ↔ w / 2 ^ c.repeatW = k.toNat := by
  have hlt : w / 2 ^ c.repeatW < 4 := by
    rw [Nat.div_lt_iff_lt_mul c.two_pow_repeatW_pos, ← c.two_pow_wordW]; exact hw
  rw [kindField_eq_iff, Nat.mod_eq_of_lt hlt]

/-- A word of WORD_W bits encodes no run exactly when its kind code is 3 (R95). -/
theorem runOfWord_eq_none_iff_of_lt {c : Config} {w : Nat} (hw : w < 2 ^ c.wordW) :
    runOfWord c w = none ↔ w / 2 ^ c.repeatW = 3 :=
  runOfWord_eq_none.trans (kindField_eq_iff_of_lt hw)

/-- A word of WORD_W bits of another kind code encodes a run of that kind, with the repeat field as its count (R82). -/
theorem exists_runOfWord_of_lt {c : Config} {w : Nat} (hw : w < 2 ^ c.wordW) (h : w / 2 ^ c.repeatW ≠ 3) :
    ∃ k : Kind, runOfWord c w = some (k, w % 2 ^ c.repeatW) ∧
      k.unitWord c = w / 2 ^ c.repeatW * 2 ^ c.repeatW := by
  cases hrun : runOfWord c w with
  | none => exact absurd ((runOfWord_eq_none_iff_of_lt hw).1 hrun) h
  | some r =>
    obtain ⟨k, n⟩ := r
    obtain ⟨hkind, hrep⟩ := runOfWord_fields hrun
    refine ⟨k, by rw [← hrep, repField], ?_⟩
    rw [unitWord_eq, (kindField_eq_iff_of_lt hw).1 hkind]

/-- Settles O20: the reserved kind is looked at first; any other word is a run, which `appendRun` appends or drops by its room
alone (R114). -/
theorem xrRunResult : Obligations.XrRunResult := by
  unfold Obligations.XrRunResult
  intro s arg w hw
  obtain rfl : w = s.runOperand arg := hw
  have hlt := runOperand_lt s arg
  refine ⟨rfl, fun h3 => ?_, fun h3 hfull => ?_, fun h3 hfits => ?_⟩
  · exact ⟨_, exec_xrRun_illegal ((runOfWord_eq_none_iff_of_lt hlt).2 h3), illegalRun_dropped s _⟩
  · obtain ⟨k, hrun, -⟩ := exists_runOfWord_of_lt hlt h3
    exact ⟨_, exec_xrRun_run hrun, appendRun_storeFull k hfull⟩
  · obtain ⟨k, hrun, hunit⟩ := exists_runOfWord_of_lt hlt h3
    exact ⟨_, exec_xrRun_run hrun, hunit ▸ appendRun_appended k hfits⟩

/-! ### XR_END -/

/-- A pending program whose last cell is a Halt ends in a Halt. -/
theorem pendingEndsInHalt_of_halt {s : State} {w : Nat} (hp : s.len < s.wp)
    (hw : Memory.read s.cells (s.wp - 1) = some w) (hh : isHalt s.cfg w = true) : s.pendingEndsInHalt = some true := by
  rw [pendingEndsInHalt_eq, if_pos hp, hw, Option.map_some, hh]

/-- Nothing pending, or a last pending cell that is no Halt: the program does not end in one. -/
theorem pendingEndsInHalt_of_open {s : State}
    (h : s.len < s.wp → ∃ w, Memory.read s.cells (s.wp - 1) = some w ∧ ¬ isHalt s.cfg w = true) :
    s.pendingEndsInHalt = some false := by
  rw [pendingEndsInHalt_eq]
  split
  · rename_i hp
    obtain ⟨w, hw, hh⟩ := h hp
    rw [hw, Option.map_some, Bool.eq_false_iff.2 hh]
  · rfl

/-- XR_END on a program that ends in a Halt commits it (R118). -/
theorem exec_xrEnd_closed {s : State} (arg : Nat) (h : s.pendingEndsInHalt = some true) :
    exec (.xrEnd arg) s = .next s.commit := by
  simp only [exec, execXrEnd, h]

/-- XR_END on any other program with room for a Halt appends it and commits (R118). -/
theorem exec_xrEnd_fits {s : State} (arg : Nat) (h : s.pendingEndsInHalt = some false)
    (hfits : s.wp + 1 ≤ s.cfg.memCells) : exec (.xrEnd arg) s = .next (s.append .halt 1).commit := by
  simp only [exec, execXrEnd, h, fits_iff.2 hfits, if_true]

/-- XR_END without room for the Halt it needs is StoreFull (R118). -/
theorem exec_xrEnd_full {s : State} (arg : Nat) (h : s.pendingEndsInHalt = some false)
    (hfull : s.cfg.memCells < s.wp + 1) : exec (.xrEnd arg) s = .next (takeFault .storeFull s) := by
  have hfits : ¬ s.fits 1 = true := fun hf => Nat.not_le.2 hfull (fits_iff.1 hf)
  simp only [exec, execXrEnd, h, if_neg hfits]

/-- Settles O21: whether the cell below WP is a Halt decides between the commit and the closing Halt, and the room at WP
between that Halt and StoreFull (R118). -/
theorem xrEndResult : Obligations.XrEndResult := by
  unfold Obligations.XrEndResult
  simp only [← isHalt_iff, ne_eq]
  intro s arg
  refine ⟨rfl, fun w hp hw hh => ?_, fun hopen hfits => ?_, fun hopen hfull => ?_⟩
  · exact exec_xrEnd_closed arg (pendingEndsInHalt_of_halt hp hw hh)
  · have happ := append_appended s .halt 1
    refine ⟨_, exec_xrEnd_fits arg (pendingEndsInHalt_of_open hopen) hfits,
      rfl, rfl, rfl, rfl, rfl, rfl, rfl, rfl, ?_, fun a ha => happ.others a (by omega)⟩
    rw [← unitWord_halt]
    exact happ.written s.wp (Nat.le_refl _) (Nat.lt_succ_self _)
  · exact ⟨_, exec_xrEnd_full arg (pendingEndsInHalt_of_open hopen) hfull, storeFull_dropped s⟩

/-! ### XR_ABORT -/

/-- Settles O22: XR_ABORT is the drop of the pending program and its answer, in every state (R119). -/
theorem xrAbortResult : Obligations.XrAbortResult := by
  unfold Obligations.XrAbortResult
  exact fun s arg => ⟨rfl, _, rfl, dropPending_dropped s .ok 0⟩

end Sys2Proof.Machine

/-! SUPPORT. Proofs about the sequencer (`41_sequencer.md`): STEP (R140, R145, R151), its delay (R154), PC_LOAD (R147) and
CPU_RESET (R148). -/

namespace Sys2Proof.Machine

/-! ### STEP -/

theorem isUnitWord_iff {c : Config} {w : Nat} : IsUnitWord c w ↔ ∃ k : Kind, w = k.unitWord c := by
  constructor
  · rintro (h | h | h)
    · exact ⟨.compute, h⟩
    · exact ⟨.ioWait, h⟩
    · exact ⟨.halt, h⟩
  · rintro ⟨k, h⟩
    cases k with
    | compute => exact .inl h
    | ioWait => exact .inr (.inl h)
    | halt => exact .inr (.inr h)

/-- STEP with PC at or above LEN is OutOfRange (R140). -/
theorem exec_step_outOfRange {s : State} (arg : Nat) (h : s.len ≤ s.pc) :
    exec (.step arg) s = .next (takeFault (.outOfRange s.pc) s) := by
  simp only [exec, execStep, memRead_outOfRange_iff.2 h]

/-- STEP on a committed cell that holds no unit instruction stops the model (U6). -/
theorem exec_step_stuck {s : State} (arg : Nat) {f : Fault} (h : s.memRead s.pc = .stuck f) :
    exec (.step arg) s = .fault f := by
  simp only [exec, execStep, h]

/-- A STEP that answers has stepped over the unit instruction at PC, or is OutOfRange (R140). -/
theorem exec_step_cases {s t : State} {arg : Nat} (h : exec (.step arg) s = .next t) :
    (∃ k, s.memRead s.pc = .cell k ∧ t = s.stepOver (k.unitWord s.cfg)) ∨
    (s.len ≤ s.pc ∧ t = takeFault (.outOfRange s.pc) s) := by
  cases hm : s.memRead s.pc with
  | cell k =>
    rw [exec_step_cell arg hm] at h
    cases h
    exact .inl ⟨k, rfl, rfl⟩
  | outOfRange =>
    have hout := memRead_outOfRange_iff.1 hm
    rw [exec_step_outOfRange arg hout] at h
    cases h
    exact .inr ⟨hout, rfl⟩
  | stuck f => rw [exec_step_stuck arg hm] at h; cases h

/-- A read looks at the parameters, LEN and the cell addressed alone (R52). -/
theorem memRead_congr {s u : State} {a : Nat} (hcfg : u.cfg = s.cfg) (hlen : u.len = s.len)
    (hcell : Memory.read u.cells a = Memory.read s.cells a) : u.memRead a = s.memRead a := by
  rw [State.memRead, State.memRead, State.inRange, State.inRange, hcfg, hlen, hcell]

/-- Settles O14: in range the cell at PC reads as a unit instruction, which STEP steps over; out of range STEP is OutOfRange
(R140). -/
theorem stepResult : Obligations.StepResult := by
  unfold Obligations.StepResult
  refine fun s arg => ⟨rfl, fun w hpc hw hunit => ?_, exec_step_outOfRange arg⟩
  obtain ⟨k, rfl⟩ := isUnitWord_iff.1 hunit
  rw [exec_step_cell arg (memRead_cell_iff.2 ⟨hpc, hw⟩), stepOver_unit]
  simp only [← unitWord_halt, unitWord_inj_iff]

/-- Settles O15: under the invariant every committed cell reads as a unit instruction, a Halt too, so only the range of PC
decides (R145). -/
theorem haltDoesNotStopTheSequencer : Obligations.HaltDoesNotStopTheSequencer := by
  unfold Obligations.HaltDoesNotStopTheSequencer
  intro s arg hinv
  by_cases hpc : s.pc < s.len
  · obtain ⟨k, hm⟩ := hinv.memRead_cell hpc
    exact ⟨_, ⟨.ok, k.unitWord s.cfg⟩, exec_step_cell arg hm, stepOver_responses s _, .inl rfl,
      iff_of_true rfl hpc, fun _ => stepOver_pc s _⟩
  · exact ⟨_, ⟨.outOfRange, s.pc⟩, exec_step_outOfRange arg (Nat.le_of_not_lt hpc), rfl, .inr rfl,
      iff_of_false nofun hpc, nofun⟩

/-- Settles O16: states alike in R151's inputs read the same cell, so both step over the same instruction or both are
OutOfRange; an idle sample is only used up (R85). -/
theorem stepDependsOnItsInputsAlone : Obligations.StepDependsOnItsInputsAlone := by
  unfold Obligations.StepDependsOnItsInputsAlone
  refine ⟨fun s u t a b hcfg hpc hir hlen hcell hexec => ?_, fun s p ps => step_of_idle⟩
  have hread : u.memRead u.pc = s.memRead s.pc := by rw [hpc]; exact memRead_congr hcfg hlen hcell
  obtain ⟨k, hm, rfl⟩ | ⟨hout, rfl⟩ := exec_step_cases hexec
  · refine ⟨_, ⟨.ok, k.unitWord s.cfg⟩, [⟨k.unitWord s.cfg, s.pc⟩], exec_step_cell b (hread.trans hm), ?_⟩
    simp [hcfg, hpc, hir]
  · have hout' : u.len ≤ u.pc := by rw [hlen, hpc]; exact hout
    refine ⟨_, ⟨.outOfRange, s.pc⟩, [], exec_step_outOfRange b hout', ?_⟩
    simp [hpc, hir, CmdFault.status, CmdFault.info]

/-! ### STEP_DELAY -/

/-- The same outcome on the machine with another STEP_DELAY. -/
def outcomeWithDelay (d : Nat) : Host.Outcome State Fault Refusal → Host.Outcome State Fault Refusal
  | .next t    => .next (t.withDelay d)
  | .fault f   => .fault f
  | .refused r => .refused r

theorem pendingEndsInHalt_withDelay (s : State) (d : Nat) :
    (s.withDelay d).pendingEndsInHalt = s.pendingEndsInHalt := rfl

theorem request_withDelay (p : PortsIn) (s : State) (d : Nat) :
    p.request (s.withDelay d).cfg = p.request s.cfg := rfl

theorem takeFault_withDelay (f : CmdFault) (s : State) (d : Nat) :
    takeFault f (s.withDelay d) = (takeFault f s).withDelay d := by
  cases f <;> rfl

theorem stepOver_withDelay (s : State) (d : Nat) (k : Kind) :
    (s.withDelay d).stepOver (k.unitWord (s.withDelay d).cfg) = (s.stepOver (k.unitWord s.cfg)).withDelay d := by
  rw [stepOver_unit, stepOver_unit]
  rfl

theorem appendRun_withDelay (k : Kind) (n : Nat) (s : State) (d : Nat) :
    appendRun k n (s.withDelay d) = (appendRun k n s).withDelay d := by
  obtain ⟨hfits, e⟩ | ⟨hfull, e⟩ := appendRun_cases k n s
  · rw [e]; exact if_pos (fits_iff.2 hfits)
  · rw [e, ← takeFault_withDelay]
    exact if_neg fun hfits => Nat.not_le.2 hfull (fits_iff.1 hfits)

theorem exec_unitInstr_withDelay (k : Kind) (s : State) (d : Nat) :
    exec k.unitInstr (s.withDelay d) = outcomeWithDelay d (exec k.unitInstr s) := by
  rw [exec_unitInstr, exec_unitInstr, stepOver_withDelay]
  rfl

theorem exec_runInstr_withDelay (k : Kind) (n : Nat) (s : State) (d : Nat) :
    exec (k.runInstr n) (s.withDelay d) = outcomeWithDelay d (exec (k.runInstr n) s) := by
  rw [exec_runInstr, exec_runInstr, appendRun_withDelay]
  rfl

theorem exec_step_withDelay (arg : Nat) (s : State) (d : Nat) :
    exec (.step arg) (s.withDelay d) = outcomeWithDelay d (exec (.step arg) s) := by
  have hread : (s.withDelay d).memRead (s.withDelay d).pc = s.memRead s.pc := rfl
  cases hm : s.memRead s.pc with
  | cell k =>
    rw [exec_step_cell arg hm, exec_step_cell arg (hread.trans hm), stepOver_withDelay]
    rfl
  | outOfRange =>
    have hout := memRead_outOfRange_iff.1 hm
    rw [exec_step_outOfRange arg hout, exec_step_outOfRange (s := s.withDelay d) arg hout, takeFault_withDelay]
    rfl
  | stuck f =>
    rw [exec_step_stuck arg hm, exec_step_stuck arg (hread.trans hm)]
    rfl

theorem exec_xrRun_withDelay (arg : Nat) (s : State) (d : Nat) :
    exec (.xrRun arg) (s.withDelay d) = outcomeWithDelay d (exec (.xrRun arg) s) := by
  cases hrun : runOfWord s.cfg (s.runOperand arg) with
  | none =>
    rw [exec_xrRun_illegal hrun, exec_xrRun_illegal (s := s.withDelay d) hrun]
    rfl
  | some r =>
    obtain ⟨k, n⟩ := r
    rw [exec_xrRun_run hrun, exec_xrRun_run (s := s.withDelay d) hrun, appendRun_withDelay]
    rfl

theorem exec_xrEnd_withDelay (arg : Nat) (s : State) (d : Nat) :
    exec (.xrEnd arg) (s.withDelay d) = outcomeWithDelay d (exec (.xrEnd arg) s) := by
  cases hp : s.pendingEndsInHalt with
  | none =>
    simp only [exec, execXrEnd, pendingEndsInHalt_withDelay, hp]
    rfl
  | some closed =>
    cases closed with
    | true =>
      rw [exec_xrEnd_closed arg hp, exec_xrEnd_closed (s := s.withDelay d) arg hp]
      rfl
    | false =>
      obtain hfits | hfull := Nat.lt_or_ge s.wp s.cfg.memCells
      · rw [exec_xrEnd_fits arg hp hfits, exec_xrEnd_fits (s := s.withDelay d) arg hp hfits]
        rfl
      · have hfull' := Nat.lt_succ_of_le hfull
        rw [exec_xrEnd_full arg hp hfull', exec_xrEnd_full (s := s.withDelay d) arg hp hfull']
        rfl

theorem exec_fetch_withDelay (arg : Nat) (s : State) (d : Nat) :
    exec (.fetch arg) (s.withDelay d) = outcomeWithDelay d (exec (.fetch arg) s) := by
  have hread : (s.withDelay d).memRead ((s.withDelay d).addrOperand arg) = s.memRead (s.addrOperand arg) := rfl
  simp only [exec, execFetch, hread]
  cases s.memRead (s.addrOperand arg) <;> rfl

/-- No instruction looks at STEP_DELAY: where its meaning branches it tests what the delay does not touch, and every update is
made beside the delay. -/
theorem exec_withDelay (i : Instr) (s : State) (d : Nat) :
    exec i (s.withDelay d) = outcomeWithDelay d (exec i s) := by
  cases i with
  | compute => exact exec_unitInstr_withDelay .compute s d
  | ioWait => exact exec_unitInstr_withDelay .ioWait s d
  | halt => exact exec_unitInstr_withDelay .halt s d
  | runCompute n => exact exec_runInstr_withDelay .compute n s d
  | runIoWait n => exact exec_runInstr_withDelay .ioWait n s d
  | runHalt n => exact exec_runInstr_withDelay .halt n s d
  | xrRun arg => exact exec_xrRun_withDelay arg s d
  | xrEnd arg => exact exec_xrEnd_withDelay arg s d
  | step arg => exact exec_step_withDelay arg s d
  | fetch arg => exact exec_fetch_withDelay arg s d
  | xrAbort | pcLoad | cpuReset | rdPc | rdIr | rdLen => rfl

theorem step_withDelay (s : State) (d : Nat) : step (s.withDelay d) = outcomeWithDelay d (step s) := by
  cases hin : s.inputs with
  | nil =>
    have hin' : (s.withDelay d).inputs = [] := hin
    simp only [step, State.sample, hin, hin']
    rfl
  | cons p ps =>
    have hin' : (s.withDelay d).inputs = p :: ps := hin
    simp only [step, State.sample, hin, hin', request_withDelay]
    cases p.request s.cfg with
    | reset => rfl
    | idle => rfl
    | run i => exact exec_withDelay i (s.setInputs ps) d
    | reserved c => exact congrArg Host.Outcome.next (takeFault_withDelay (.illegalCommand c) (s.setInputs ps) d)

/-- Settles O17: another delay goes through the step as it is (R154). -/
theorem stepDelayHasNoEffect : Obligations.StepDelayHasNoEffect := by
  unfold Obligations.StepDelayHasNoEffect
  refine fun s d => ⟨fun t h => ?_, fun f h => ?_⟩
  · rw [step_withDelay, h]; rfl
  · rw [step_withDelay, h]; rfl

/-! ### PC_LOAD and CPU_RESET -/

/-- Settles O24: the one update of PC and the answer, read off `execPcLoad` (R147). -/
theorem pcLoadResult : Obligations.PcLoadResult := by
  unfold Obligations.PcLoadResult
  exact fun s arg => ⟨rfl, rfl⟩

/-- Settles O25: the updates of PC and IR and the answer, with NONE as kind code 3 above zeros (R148, R84). -/
theorem cpuResetResult : Obligations.CpuResetResult := by
  unfold Obligations.CpuResetResult
  refine fun s arg => ⟨rfl, ?_⟩
  rw [← noneWord_eq]
  rfl

end Sys2Proof.Machine

/-! SUPPORT. Proofs about the host's reads (`42_host.md`): FETCH (R171), RD_PC, RD_IR and RD_LEN (R172 to R174), and the
reserved command codes (R175). -/

namespace Sys2Proof.Machine

/-! ### FETCH -/

/-- FETCH at a committed cell answers the cell's unit word (R171). -/
theorem exec_fetch_cell {s : State} {arg : Nat} {k : Kind} (h : s.memRead (s.addrOperand arg) = .cell k) :
    exec (.fetch arg) s = .next (s.respond .ok (k.unitWord s.cfg)) := by
  simp only [exec, execFetch, h]

/-- FETCH at or above LEN, at a pending cell too, is OutOfRange (R171). -/
theorem exec_fetch_outOfRange {s : State} {arg : Nat} (h : s.len ≤ s.addrOperand arg) :
    exec (.fetch arg) s = .next (takeFault (.outOfRange (s.addrOperand arg)) s) := by
  simp only [exec, execFetch, memRead_outOfRange_iff.2 h]

/-- Settles O26: below LEN the addressed cell reads as a unit instruction, whose word is answered; from LEN on the read is
out of range (R171). -/
theorem fetchResult : Obligations.FetchResult := by
  unfold Obligations.FetchResult
  intro s arg a ha
  obtain rfl : a = s.addrOperand arg := ha
  refine ⟨rfl, fun w hlt hw hunit => ?_, exec_fetch_outOfRange⟩
  obtain ⟨k, rfl⟩ := isUnitWord_iff.1 hunit
  exact exec_fetch_cell (memRead_cell_iff.2 ⟨hlt, hw⟩)

/-! ### RD_PC, RD_IR and RD_LEN -/

/-- What RD_IR can answer in a state that meets the invariant, in the numbers of R83 and R84 (R173). -/
theorem Inv.ir_value {s : State} (h : Inv s) : s.ir = 3 * 2 ^ s.cfg.repeatW ∨ s.ir = 0 ∨ s.ir = 2 ^ s.cfg.repeatW := by
  rw [← noneWord_eq, ← unitWord_compute s.cfg, ← unitWord_ioWait]
  exact h.ir_legal

/-- Settles O27: each read is the one answer of its meaning, and the invariant names what IR can hold (R172 to R174). -/
theorem readCommandsAnswerTheirRegister : Obligations.ReadCommandsAnswerTheirRegister := by
  unfold Obligations.ReadCommandsAnswerTheirRegister
  exact fun s arg => ⟨⟨rfl, rfl⟩, ⟨rfl, rfl⟩, Inv.ir_value, rfl, rfl⟩

/-! ### The reserved command codes -/

/-- IllegalCommand answers the code itself where it fits DATA (`30_encoding.md` R87). -/
theorem illegalCommand_info_of_fits {s : State} {cmd : BitVec 4} (h : cmd.toNat < 2 ^ s.cfg.argW) :
    CmdFault.info s (.illegalCommand cmd) = cmd.toNat := if_pos h

/-- Settles O8: the step uses up the sample and delivers the fault, which drops nothing and answers the code (R175, R204). -/
theorem reservedCommandIsIllegalCommand : Obligations.ReservedCommandIsIllegalCommand := by
  unfold Obligations.ReservedCommandIsIllegalCommand
  intro s p ps hin hr hv hc hfits
  have hinfo : CmdFault.info (s.setInputs ps) (.illegalCommand p.cmd) = p.cmd.toNat := illegalCommand_info_of_fits hfits
  rw [step_of_reserved hin hr hv hc, ← hinfo]
  rfl

end Sys2Proof.Machine

/-! SUPPORT. Proofs about the faults of the hardware (`60_exceptions.md`): what a command that faults leaves alone (R207). -/

namespace Sys2Proof.Machine

/-! ### Delivering a fault -/

/-- Dropping the pending program cuts the store at LEN, above every committed cell (R207). -/
theorem read_takeFault_of_lt (f : CmdFault) {s : State} {a : Nat} (ha : a < s.len) :
    Memory.read (takeFault f s).cells a = Memory.read s.cells a := by
  rw [takeFault_cells]
  split
  · rw [Memory.read_below, if_pos ha]
  · rfl

/-- No fault touches more than WP and the pending cells (R207). -/
theorem sameCommitted_takeFault (f : CmdFault) (s : State) : SameCommitted s (takeFault f s) where
  cfg := takeFault_cfg f s
  pc := takeFault_pc f s
  ir := takeFault_ir f s
  len := takeFault_len f s
  inputs := takeFault_inputs f s
  cells _ := read_takeFault_of_lt f

/-- StoreFull and IllegalRun drop the pending program (R207). -/
theorem CmdFault.dropsPending_of_router {f : CmdFault} (h : f.status = .storeFull ∨ f.status = .illegalRun) :
    f.dropsPending = true := by
  cases f with
  | storeFull | illegalRun => rfl
  | outOfRange | illegalCommand => exact h.elim nofun nofun

/-- OutOfRange and IllegalCommand leave the pending program (R207). -/
theorem CmdFault.keepsPending_of_not_router {f : CmdFault}
    (h : f.status = .outOfRange ∨ f.status = .illegalCommand) : f.dropsPending = false := by
  cases f with
  | outOfRange | illegalCommand => rfl
  | storeFull | illegalRun => exact h.elim nofun nofun

/-! ### How a command ends -/

/-- A command that completes answers OK, or a fault is delivered and nothing else happens: a command that faults has done
nothing before (R207). -/
def AnswersOkOrFaults (s t : State) : Prop :=
  (∃ d, t.responses = s.responses ++ [⟨.ok, d⟩]) ∨ ∃ f, t = takeFault f s

theorem Effect.answersOkOrFaults {s t : State} {i : Instr} (h : Effect s i t) : AnswersOkOrFaults s t := by
  cases h with
  | stepOut _ _ _ ht | fetchOut _ _ _ ht | runFull _ _ _ _ ht | runIllegal _ _ _ ht | xrEndFull _ _ _ _ ht =>
    exact .inr ⟨_, ht⟩
  | unit _ _ ht | step _ _ _ _ ht => exact .inl ⟨_, ht ▸ stepOver_responses s _⟩
  | run _ _ _ _ ht | xrEnd _ _ _ ht | xrEndHalt _ _ _ _ ht | xrAbort _ _ ht | pcLoad _ _ ht | cpuReset _ _ ht
  | fetch _ _ _ _ ht | rdPc _ _ ht | rdIr _ _ ht | rdLen _ _ ht => exact .inl ⟨_, congrArg State.responses ht⟩

/-- So it is for every taken command, of a reserved code too. -/
theorem answersOkOrFaults_of_taken {s t : State} {p : PortsIn} {ps : List PortsIn} (hin : s.inputs = p :: ps)
    (hr : p.rst = false) (hv : p.cmdValid = true) (hstep : step s = .next t) :
    AnswersOkOrFaults (s.setInputs ps) t := by
  by_cases hc : p.cmd = 0x0#4 ∨ 0xB#4 ≤ p.cmd
  · rw [step_of_reserved hin hr hv hc] at hstep
    cases hstep
    exact .inr ⟨_, rfl⟩
  · obtain ⟨i, hd⟩ := decodeCommand_of_not_reserved hc (p.arg % 2 ^ s.cfg.argW)
    rw [step_of_decodes hin hr hv hd] at hstep
    exact (exec_effect hstep).answersOkOrFaults

/-- A response other than OK is that of a fault, which says all that the command did. -/
theorem AnswersOkOrFaults.fault {s t : State} {r : Response} (h : AnswersOkOrFaults s t)
    (hresp : t.responses = s.responses ++ [r]) (hr : r.status ≠ .ok) :
    ∃ f, t = takeFault f s ∧ r.status = f.status := by
  obtain ⟨d, hok⟩ | ⟨f, rfl⟩ := h
  · obtain rfl : r = ⟨.ok, d⟩ := by simpa [hok] using hresp.symm
    exact absurd rfl hr
  · obtain rfl : r = ⟨f.status, f.info s⟩ := by simpa using hresp.symm
    exact ⟨f, rfl, rfl⟩

/-! ### The statement -/

/-- Settles O33: a taken command not answered OK is the delivery of one fault, whose kind says whether the pending program
is dropped (R207). -/
theorem faultsChangeNothingButPending : Obligations.FaultsChangeNothingButPending := by
  unfold Obligations.FaultsChangeNothingButPending
  intro s t p ps r hin hrst hv hstep hresp hbad
  obtain ⟨f, rfl, hst⟩ := (answersOkOrFaults_of_taken hin hrst hv hstep).fault hresp hbad
  rw [hst]
  refine ⟨sameCommitted_takeFault f (s.setInputs ps), takeFault_trace f _, fun h => ?_, fun h => ?_⟩
  · rw [takeFault_wp, if_pos (CmdFault.dropsPending_of_router h)]
    rfl
  · have hsame := sameMachine_takeFault (CmdFault.keepsPending_of_not_router h) (s.setInputs ps)
    exact ⟨hsame.wp, hsame.cells⟩

end Sys2Proof.Machine

/-! SUPPORT. Proofs about the encoding (`30_encoding.md` sections 1, 2, 4 and 7): what decodes, that it is what the encoder makes,
and what is rejected. -/

namespace Sys2Proof.Machine

/-! ### The three formats of an instruction -/

theorem encode_unitInstr (c : Config) (k : Kind) : encode c k.unitInstr = .unit (k.unitWord c) := by cases k <;> rfl

theorem encode_runInstr (c : Config) (k : Kind) (n : Nat) : encode c (k.runInstr n) = .run (runWord c k n) := by
  cases k <;> rfl

theorem wellFormed_unitInstr (c : Config) (k : Kind) : k.unitInstr.wellFormed c = true := by cases k <;> rfl

theorem wellFormed_runInstr {c : Config} {k : Kind} {n : Nat} : (k.runInstr n).wellFormed c = true ↔ n ≤ c.maxRepeat := by
  cases k <;> exact decide_eq_true_iff

theorem CommandRow.decodes {cmd : BitVec 4} {a : Nat} {i : Instr} (h : CommandRow a cmd i) :
    decodeCommand cmd a = .ok i := by cases h <;> rfl

theorem CommandRow.encodes {cmd : BitVec 4} {a : Nat} {i : Instr} (h : CommandRow a cmd i) (c : Config) :
    encode c i = .command (commandWord c cmd a) := by cases h <;> rfl

theorem CommandRow.wellFormed_iff {cmd : BitVec 4} {a : Nat} {i : Instr} (h : CommandRow a cmd i) {c : Config} :
    i.wellFormed c = true ↔ Fits c.argW a := by cases h <;> exact decide_eq_true_iff

/-- The rows of the opcode table by format (R80): a unit instruction, a run, or a command. -/
theorem instr_cases (i : Instr) :
    (∃ k : Kind, i = k.unitInstr) ∨ (∃ (k : Kind) (n : Nat), i = k.runInstr n) ∨ ∃ a cmd, CommandRow a cmd i := by
  cases i with
  | compute => exact .inl ⟨.compute, rfl⟩
  | ioWait => exact .inl ⟨.ioWait, rfl⟩
  | halt => exact .inl ⟨.halt, rfl⟩
  | runCompute n => exact .inr (.inl ⟨.compute, n, rfl⟩)
  | runIoWait n => exact .inr (.inl ⟨.ioWait, n, rfl⟩)
  | runHalt n => exact .inr (.inl ⟨.halt, n, rfl⟩)
  | xrRun a => exact .inr (.inr ⟨a, _, .xrRun⟩)
  | xrEnd a => exact .inr (.inr ⟨a, _, .xrEnd⟩)
  | xrAbort a => exact .inr (.inr ⟨a, _, .xrAbort⟩)
  | step a => exact .inr (.inr ⟨a, _, .step⟩)
  | pcLoad a => exact .inr (.inr ⟨a, _, .pcLoad⟩)
  | cpuReset a => exact .inr (.inr ⟨a, _, .cpuReset⟩)
  | fetch a => exact .inr (.inr ⟨a, _, .fetch⟩)
  | rdPc a => exact .inr (.inr ⟨a, _, .rdPc⟩)
  | rdIr a => exact .inr (.inr ⟨a, _, .rdIr⟩)
  | rdLen a => exact .inr (.inr ⟨a, _, .rdLen⟩)

/-! ### What decodes, format by format -/

/-- A cell's word decodes exactly when it is a unit word (R83). -/
theorem decode_unit_ok_iff {c : Config} {w : Nat} {i : Instr} :
    decode c (.unit w) = .ok i ↔ ∃ k : Kind, w = k.unitWord c ∧ i = k.unitInstr := by
  simp only [decode, decodeUnit]
  constructor
  · intro h
    split at h
    · rename_i k hk; cases h; exact ⟨k, unitOfWord_eq_some hk, rfl⟩
    · cases h
  · rintro ⟨k, rfl, rfl⟩
    simp only [unitOfWord_unitWord]

/-- A run word decodes exactly when it is the word of a kind and a count that fits (R82). -/
theorem decode_run_ok_iff {c : Config} {w : Nat} {i : Instr} :
    decode c (.run w) = .ok i ↔ ∃ (k : Kind) (n : Nat), n ≤ c.maxRepeat ∧ w = runWord c k n ∧ i = k.runInstr n := by
  simp only [decode, decodeRun]
  constructor
  · intro h
    split at h
    · rename_i hw
      split at h
      · rename_i k n hrun
        cases h
        obtain ⟨hn, hword⟩ := runOfWord_eq_some hw hrun
        exact ⟨k, n, hn, hword, rfl⟩
      · cases h
    · cases h
  · rintro ⟨k, n, hn, rfl, rfl⟩
    simp only [runWord_lt, if_true, runOfWord_runWord, Nat.mod_eq_of_lt (Config.le_maxRepeat_iff.1 hn)]

/-- A number on the command port decodes exactly when it is a code of R86 above an argument of ARG_W bits (R95). -/
theorem decode_command_ok_iff {c : Config} {v : Nat} {i : Instr} :
    decode c (.command v) = .ok i ↔ ∃ cmd a, Fits c.argW a ∧ v = commandWord c cmd a ∧ CommandRow a cmd i := by
  constructor
  · intro h
    simp only [decode] at h
    split at h
    · rename_i hv
      exact ⟨_, _, Nat.mod_lt _ (Nat.two_pow_pos _), (commandWord_fields hv).symm, .of_decodeCommand h⟩
    · cases h
  · rintro ⟨cmd, a, ha, rfl, hrow⟩
    rw [decode_command, Nat.mod_eq_of_lt ha, hrow.decodes]

/-! ### Decoder and encoder -/

/-- Settles O1: format by format, the encoder's word is one that decodes, to the instruction it was made from. -/
theorem decodeEncodeRoundTrip : Obligations.DecodeEncodeRoundTrip := by
  unfold Obligations.DecodeEncodeRoundTrip
  intro c i hwf
  obtain ⟨k, rfl⟩ | ⟨k, n, rfl⟩ | ⟨a, cmd, hrow⟩ := instr_cases i
  · rw [encode_unitInstr]
    exact decode_unit_ok_iff.2 ⟨k, rfl, rfl⟩
  · rw [encode_runInstr]
    exact decode_run_ok_iff.2 ⟨k, n, wellFormed_runInstr.1 hwf, rfl, rfl⟩
  · rw [hrow.encodes]
    exact decode_command_ok_iff.2 ⟨cmd, a, hrow.wellFormed_iff.1 hwf, rfl, hrow⟩

/-- Settles O2: a code word that decodes has the fields of a well-formed instruction, and is the word of those fields. -/
theorem decodedInstructionEncodesBack : Obligations.DecodedInstructionEncodesBack := by
  unfold Obligations.DecodedInstructionEncodesBack
  intro c d i hd
  cases d with
  | unit w =>
    obtain ⟨k, rfl, rfl⟩ := decode_unit_ok_iff.1 hd
    exact ⟨wellFormed_unitInstr c k, encode_unitInstr c k⟩
  | run w =>
    obtain ⟨k, n, hn, rfl, rfl⟩ := decode_run_ok_iff.1 hd
    exact ⟨wellFormed_runInstr.2 hn, encode_runInstr c k n⟩
  | command v =>
    obtain ⟨cmd, a, ha, rfl, hrow⟩ := decode_command_ok_iff.1 hd
    exact ⟨hrow.wellFormed_iff.2 ha, hrow.encodes c⟩

/-- Settles O3: each word's fields are read off the tables of R82, R83 and R86. -/
theorem writtenOutWordsDecode : Obligations.WrittenOutWordsDecode := by
  unfold Obligations.WrittenOutWordsDecode
  decide

/-! ### What is rejected -/

/-- A run word is rejected for its kind exactly when its two kind bits are 3 (R90). -/
theorem decode_run_reservedRunKind_iff {c : Config} {w : Nat} (hw : w < 2 ^ c.wordW) :
    decode c (.run w) = .reject (.reservedRunKind w) ↔ 3 * 2 ^ c.repeatW ≤ w := by
  have hdecode : decode c (.run w) = .reject (.reservedRunKind w) ↔ runOfWord c w = none := by
    simp only [decode, decodeRun, if_pos hw]
    cases runOfWord c w with
    | none => simp
    | some r => simp
  rw [hdecode, runOfWord_eq_none_iff_of_lt hw, ← Nat.le_div_iff_mul_le c.two_pow_repeatW_pos]
  have hlt : w / 2 ^ c.repeatW < 4 := by
    rw [Nat.div_lt_iff_lt_mul c.two_pow_repeatW_pos, ← c.two_pow_wordW]; exact hw
  omega

/-- A command is rejected exactly when its code is one of R86's reserved ones. -/
theorem decodeCommand_reservedCommand_iff {cmd : BitVec 4} {a : Nat} :
    decodeCommand cmd a = .reject (.reservedCommand cmd) ↔ cmd = 0x0#4 ∨ 0xB#4 ≤ cmd := by
  refine ⟨fun h => ?_, fun h => decodeCommand_of_reserved h a⟩
  by_contra hc
  obtain ⟨i, hi⟩ := decodeCommand_of_not_reserved hc a
  rw [hi] at h
  cases h

/-- The cells' words that are instructions are the three of R83. -/
theorem decode_unit_isOk_iff {c : Config} {w : Nat} :
    (∃ i, decode c (.unit w) = .ok i) ↔ w = 0 ∨ w = 2 ^ c.repeatW ∨ w = 2 * 2 ^ c.repeatW := by
  rw [← unitWord_compute c, ← unitWord_halt, ← unitWord_ioWait]
  change _ ↔ IsUnitWord c w
  rw [isUnitWord_iff]
  constructor
  · rintro ⟨i, hi⟩
    obtain ⟨k, hk, -⟩ := decode_unit_ok_iff.1 hi
    exact ⟨k, hk⟩
  · rintro ⟨k, hk⟩
    exact ⟨_, decode_unit_ok_iff.2 ⟨k, hk, rfl⟩⟩

/-- A number wider than a word is in no cell (log 20). -/
theorem decode_unit_tooWide {c : Config} {w : Nat} (h : 2 ^ c.wordW ≤ w) :
    decode c (.unit w) = .reject (.tooWide w) := by
  have hnone : unitOfWord c w = none := by
    rw [Option.eq_none_iff_forall_ne_some]
    intro k hk
    exact Nat.not_le.2 (unitWord_lt c k) (unitOfWord_eq_some hk ▸ h)
  simp only [decode, decodeUnit, hnone, rejectUnit, if_pos h]

/-- Settles O4: each clause is where one branch of the decoder is taken, its test put as a bound on the number (R83, R86,
R90). -/
theorem reservedEncodingsAreRejected : Obligations.ReservedEncodingsAreRejected := by
  unfold Obligations.ReservedEncodingsAreRejected
  refine fun c => ⟨fun w => decode_run_reservedRunKind_iff, fun k a => ?_, fun w => decode_unit_isOk_iff,
    fun w hw => ⟨if_neg (Nat.not_lt.2 hw), decode_unit_tooWide hw⟩, fun v hv => if_neg (Nat.not_lt.2 hv)⟩
  have hcode : ∀ k : BitVec 4, (k = 0x0#4 ∨ 0xB#4 ≤ k) ↔ (k.toNat = 0 ∨ 11 ≤ k.toNat) := by decide
  rw [← hcode, ← decodeCommand_reservedCommand_iff (a := a % 2 ^ c.argW), ← decode_command]
  rfl

end Sys2Proof.Machine

/-! SUPPORT. Proofs about the invariant (`10_state.md` sections 8 to 10): it holds after reset, every step keeps it, and from it
no step stops. -/

namespace Sys2Proof.Machine

/-! ### The updates that keep the invariant -/

theorem Inv.len_le_cap {s : State} (h : Inv s) : s.len ≤ s.cfg.memCells := Nat.le_trans h.len_le_wp h.wp_le_cap

/-- The store has fewer cells than there are addresses (R6). -/
theorem Inv.memCells_lt {s : State} (h : Inv s) : s.cfg.memCells < 2 ^ s.cfg.addrW := by
  obtain ⟨-, -, hpos, hcap⟩ := h.params
  omega

/-- A cell with content holds a unit word, and lies below WP (R28 item 2, R29). -/
theorem Inv.unit_of_read {s : State} (h : Inv s) {a w : Nat} (hw : Memory.read s.cells a = some w) :
    a < s.wp ∧ ∃ k : Kind, w = k.unitWord s.cfg := by
  have ha : a < s.wp := by
    by_contra ha
    rw [h.cells_end a (Nat.le_of_not_lt ha)] at hw
    cases hw
  obtain ⟨v, hv, hunit⟩ := h.cells_unit a ha
  obtain rfl : v = w := by rw [hv] at hw; exact Option.some.inj hw
  exact ⟨ha, isUnitWord_iff.1 hunit⟩

theorem inv_resetAt {c : Config} (hc : c.ok) : Inv (State.resetAt c) where
  params := hc
  pc_width := Nat.two_pow_pos c.addrW
  len_le_wp := Nat.le_refl 0
  wp_le_cap := Nat.zero_le c.memCells
  cells_wf := .nil
  cells_unit _ ha := absurd ha (Nat.not_lt_zero _)
  cells_end _ _ := rfl
  closed h := absurd h (Nat.lt_irrefl 0)
  ir_legal := .inl rfl

/-- The invariant is about the elements and the parameters alone. -/
theorem Inv.of_sameMachine {s t : State} (h : Inv s) (hst : SameMachine s t) : Inv t := by
  obtain ⟨hcfg, hpc, hir, hcells, hlen, hwp⟩ := hst
  constructor
  · rw [hcfg]; exact h.params
  · rw [hcfg, hpc]; exact h.pc_width
  · rw [hlen, hwp]; exact h.len_le_wp
  · rw [hwp, hcfg]; exact h.wp_le_cap
  · rw [hcells]; exact h.cells_wf
  · rw [hwp, hcells, hcfg]; exact h.cells_unit
  · rw [hwp, hcells]; exact h.cells_end
  · rw [hlen, hcells, hcfg]; exact h.closed
  · rw [hir, hcfg]; exact h.ir_legal

theorem Inv.respond {s : State} (h : Inv s) (st : Status) (d : Nat) : Inv (s.respond st d) :=
  h.of_sameMachine (sameMachine_respond s st d)

theorem Inv.setInputs {s : State} (h : Inv s) (ps : List PortsIn) : Inv (s.setInputs ps) :=
  h.of_sameMachine (sameMachine_setInputs s ps)

/-- RST leaves the elements as after power on (R230). -/
theorem Inv.hardReset {s : State} (h : Inv s) : Inv s.hardReset :=
  (inv_resetAt h.params).of_sameMachine ⟨rfl, rfl, rfl, rfl, rfl, rfl⟩

/-- PC and IR stand alone in the invariant: any address and any legal IR will do. -/
theorem Inv.setPc_setIr {s : State} (h : Inv s) {a w : Nat} (ha : Fits s.cfg.addrW a)
    (hw : w = noneWord s.cfg ∨ w = Kind.unitWord s.cfg .compute ∨ w = Kind.unitWord s.cfg .ioWait) :
    Inv ((s.setPc a).setIr w) :=
  { h with pc_width := ha, ir_legal := hw }

/-- Dropping the pending program leaves the committed cells (R119). -/
theorem Inv.dropPending {s : State} (h : Inv s) : Inv s.dropPending where
  params := h.params
  pc_width := h.pc_width
  len_le_wp := Nat.le_refl s.len
  wp_le_cap := h.len_le_cap
  cells_wf := Memory.below_wf h.cells_wf s.len
  cells_unit a (ha : a < s.len) := by
    rw [State.dropPending_cells, Memory.read_below, if_pos ha]
    exact h.cells_unit a (Nat.lt_of_lt_of_le ha h.len_le_wp)
  cells_end a (ha : s.len ≤ a) := by
    rw [State.dropPending_cells, Memory.read_below, if_neg (Nat.not_lt.2 ha)]
  closed (hpos : 0 < s.len) := by
    rw [State.dropPending_cells, State.dropPending_len, Memory.read_below, if_pos (Nat.sub_lt hpos Nat.one_pos)]
    exact h.closed hpos
  ir_legal := h.ir_legal

/-- Appending unit words that fit extends the cells with content up to the new WP (R114). -/
theorem Inv.append {s : State} (h : Inv s) (k : Kind) {m : Nat} (hfits : s.wp + m ≤ s.cfg.memCells) :
    Inv (s.append k m) where
  params := h.params
  pc_width := h.pc_width
  len_le_wp := Nat.le_add_right_of_le h.len_le_wp
  wp_le_cap := hfits
  cells_wf := Memory.fill_wf h.cells_wf _ _ _
  cells_unit a (ha : a < s.wp + m) := by
    rw [State.append_cells, Memory.read_fill]
    split
    · exact ⟨_, rfl, isUnitWord_iff.2 ⟨k, rfl⟩⟩
    · exact h.cells_unit a (by omega)
  cells_end a (ha : s.wp + m ≤ a) := by
    rw [State.append_cells, Memory.read_fill, if_neg (by omega)]
    exact h.cells_end a (by omega)
  closed (hpos : 0 < s.len) := by
    have hle := h.len_le_wp
    rw [State.append_len, State.append_cells, Memory.read_fill, if_neg (by omega)]
    exact h.closed hpos
  ir_legal := h.ir_legal

/-- A commit asks for a Halt below WP, which closes the committed memory it makes (R118). -/
theorem Inv.commit {s : State} (h : Inv s)
    (hclosed : Memory.read s.cells (s.wp - 1) = some (Kind.unitWord s.cfg .halt)) : Inv s.commit where
  params := h.params
  pc_width := h.pc_width
  len_le_wp := Nat.le_refl s.wp
  wp_le_cap := h.wp_le_cap
  cells_wf := h.cells_wf
  cells_unit := h.cells_unit
  cells_end := h.cells_end
  closed _ := hclosed
  ir_legal := h.ir_legal

/-- No Halt reaches IR, and a PC below LEN has an address after it (R140, R6). -/
theorem Inv.stepOver {s : State} (h : Inv s) (k : Kind) (hpc : s.pc < s.len) :
    Inv (s.stepOver (k.unitWord s.cfg)) := by
  have hwidth : Fits s.cfg.addrW (s.pc + 1) :=
    Nat.lt_of_le_of_lt (Nat.le_trans hpc h.len_le_cap) h.memCells_lt
  rw [stepOver_unit]
  refine { h with pc_width := hwidth, ir_legal := ?_ }
  cases k with
  | compute => exact .inr (.inl rfl)
  | ioWait => exact .inr (.inr rfl)
  | halt => exact h.ir_legal

theorem Inv.takeFault {s : State} (h : Inv s) (f : CmdFault) : Inv (takeFault f s) := by
  cases f with
  | outOfRange | illegalCommand => exact h.respond _ _
  | storeFull | illegalRun => exact h.dropPending.respond _ _

/-! ### The pending program's last cell -/

/-- A pending program that ends in a Halt has the unit word of Halt below WP (R118). -/
theorem Inv.halt_of_pendingEndsInHalt {s : State} (h : Inv s) (hp : s.pendingEndsInHalt = some true) :
    s.len < s.wp ∧ Memory.read s.cells (s.wp - 1) = some (Kind.unitWord s.cfg .halt) := by
  rw [pendingEndsInHalt_eq] at hp
  split at hp
  · rename_i hlt
    obtain ⟨w, hw, hhalt⟩ := Option.map_eq_some_iff.1 hp
    obtain ⟨-, k, rfl⟩ := h.unit_of_read hw
    obtain rfl : k = .halt := by simpa using hhalt
    exact ⟨hlt, hw⟩
  · cases hp

/-- XR_END finds the cell it looks at (R118). -/
theorem Inv.pendingEndsInHalt_isSome {s : State} (h : Inv s) : ∃ b, s.pendingEndsInHalt = some b := by
  rw [pendingEndsInHalt_eq]
  split
  · rename_i hlt
    obtain ⟨w, hw, -⟩ := h.cells_unit (s.wp - 1) (by omega)
    exact ⟨_, by rw [hw, Option.map_some]⟩
  · exact ⟨_, rfl⟩

/-- The closing Halt that XR_END writes is below the new WP (R118). -/
theorem read_append_last (s : State) (k : Kind) {m : Nat} (hm : 0 < m) :
    Memory.read (s.append k m).cells ((s.append k m).wp - 1) = some (k.unitWord s.cfg) := by
  rw [State.append_wp]
  exact (append_appended s k m).written _ (by omega) (by omega)

/-! ### Every instruction a step can execute keeps the invariant -/

/-- A unit instruction on its own is no step of the machine: only a STEP, which has tested PC, executes one (log 10). -/
theorem Effect.inv {s t : State} {i : Instr} (h : Effect s i t) (hinv : Inv s) (hi : ∀ k : Kind, i ≠ k.unitInstr) :
    Inv t := by
  cases h with
  | unit k hunit _ => exact absurd hunit (hi k)
  | step _ k _ hm ht => exact ht ▸ hinv.stepOver k (memRead_cell_iff.1 hm).1
  | run k _ _ hfits ht => exact ht ▸ (hinv.append k hfits).respond _ _
  | xrEnd _ _ hp ht => exact ht ▸ hinv.commit (hinv.halt_of_pendingEndsInHalt hp).2
  | xrEndHalt _ _ _ hfits ht => exact ht ▸ (hinv.append .halt hfits).commit (read_append_last s .halt Nat.one_pos)
  | xrAbort _ _ ht => exact ht ▸ hinv.dropPending.respond _ _
  | pcLoad arg _ ht => exact ht ▸ (hinv.setPc_setIr (addrOperand_lt s arg) hinv.ir_legal).respond _ _
  | cpuReset _ _ ht => exact ht ▸ (hinv.setPc_setIr (Nat.two_pow_pos _) (.inl rfl)).respond _ _
  | stepOut _ _ _ ht | fetchOut _ _ _ ht | runFull _ _ _ _ ht | runIllegal _ _ _ ht | xrEndFull _ _ _ _ ht =>
    exact ht ▸ hinv.takeFault _
  | fetch _ _ _ _ ht | rdPc _ _ ht | rdIr _ _ ht | rdLen _ _ ht => exact ht ▸ hinv.respond _ _

/-- What a sample offers is never a unit instruction (R95). -/
theorem ne_unitInstr_of_request {c : Config} {p : PortsIn} {i : Instr} (h : p.request c = .run i) (k : Kind) :
    i ≠ k.unitInstr := by
  obtain ⟨-, -, hd⟩ := request_run h
  exact (CommandRow.of_decodeCommand hd).ne_unitInstr k

/-- Settles O38: an idle machine, RST, a reserved code and each effect of a command keep the invariant (R28). -/
theorem stepKeepsInvariant : Obligations.StepKeepsInvariant := by
  unfold Obligations.StepKeepsInvariant
  intro s t hinv hstep
  obtain ⟨-, rfl⟩ | ⟨p, ps, -, ⟨-, rfl⟩ | ⟨-, rfl⟩ | ⟨i, hreq, -, heff⟩ | ⟨c, -, rfl⟩⟩ := step_cases hstep
  · exact hinv
  · exact (hinv.setInputs ps).hardReset
  · exact hinv.setInputs ps
  · exact heff.inv (hinv.setInputs ps) (ne_unitInstr_of_request hreq)
  · exact (hinv.setInputs ps).takeFault _

/-- Settles O37: no cell has content, and the registers hold their reset values (R31). -/
theorem resetMeetsInvariant : Obligations.ResetMeetsInvariant := by
  unfold Obligations.ResetMeetsInvariant
  exact ⟨inv_resetAt (by decide), fun _ => inv_resetAt⟩

/-! ### No step stops -/

/-- Every cell an instruction must read has a unit word, so the model's own faults do not arise. -/
theorem Inv.exec_next {s : State} (h : Inv s) (i : Instr) : ∃ t, exec i s = .next t := by
  cases i with
  | step arg =>
    obtain hpc | hpc := Nat.lt_or_ge s.pc s.len
    · obtain ⟨k, hk⟩ := h.memRead_cell hpc
      exact ⟨_, exec_step_cell arg hk⟩
    · exact ⟨_, exec_step_outOfRange arg hpc⟩
  | fetch arg =>
    obtain ha | ha := Nat.lt_or_ge (s.addrOperand arg) s.len
    · obtain ⟨k, hk⟩ := h.memRead_cell ha
      exact ⟨_, exec_fetch_cell hk⟩
    · exact ⟨_, exec_fetch_outOfRange ha⟩
  | xrRun arg =>
    cases hrun : runOfWord s.cfg (s.runOperand arg) with
    | none => exact ⟨_, exec_xrRun_illegal hrun⟩
    | some r => exact ⟨_, exec_xrRun_run hrun⟩
  | xrEnd arg =>
    obtain ⟨b, hb⟩ := h.pendingEndsInHalt_isSome
    cases b with
    | true => exact ⟨_, exec_xrEnd_closed arg hb⟩
    | false =>
      obtain hfits | hfull := Nat.lt_or_ge s.wp s.cfg.memCells
      · exact ⟨_, exec_xrEnd_fits arg hb hfits⟩
      · exact ⟨_, exec_xrEnd_full arg hb (Nat.lt_succ_of_le hfull)⟩
  | compute | ioWait | halt | runCompute | runIoWait | runHalt | xrAbort | pcLoad | cpuReset | rdPc | rdIr | rdLen =>
    exact ⟨_, rfl⟩

/-- Settles O39: the step of an idle machine, RST and a reserved code always answer next, and so does every instruction from
the invariant (R28, R90). -/
theorem stepNeverStops : Obligations.StepNeverStops := by
  unfold Obligations.StepNeverStops
  intro s hinv
  cases hin : s.inputs with
  | nil => exact ⟨s, by simp only [step, State.sample, hin]⟩
  | cons p ps =>
    cases hreq : p.request s.cfg with
    | reset => exact ⟨_, by simp only [step, State.sample, hin, hreq]; rfl⟩
    | idle => exact ⟨_, by simp only [step, State.sample, hin, hreq]; rfl⟩
    | run i =>
      obtain ⟨t, ht⟩ := (hinv.setInputs ps).exec_next i
      exact ⟨t, by simpa only [step, State.sample, hin, hreq] using ht⟩
    | reserved c => exact ⟨_, by simp only [step, State.sample, hin, hreq]; rfl⟩

/-! ### The store, in every state -/

/-- What an instruction does to the store: nothing, a cut at LEN, or a fill from WP. -/
theorem Effect.cells {s t : State} {i : Instr} (h : Effect s i t) :
    t.cells = s.cells ∨ t.cells = Memory.below s.cells s.len ∨
      ∃ v m, t.cells = Memory.fill s.cells s.wp v m := by
  cases h with
  | unit _ _ ht | step _ _ _ _ ht => exact .inl (ht ▸ stepOver_cells s _)
  | run _ _ _ _ ht | xrEndHalt _ _ _ _ ht => exact .inr (.inr ⟨_, _, congrArg State.cells ht⟩)
  | runFull _ _ _ _ ht | runIllegal _ _ _ ht | xrEndFull _ _ _ _ ht | xrAbort _ _ ht =>
    exact .inr (.inl (congrArg State.cells ht))
  | stepOut _ _ _ ht | fetchOut _ _ _ ht | xrEnd _ _ _ ht | pcLoad _ _ ht | cpuReset _ _ ht | fetch _ _ _ _ ht
  | rdPc _ _ ht | rdIr _ _ ht | rdLen _ _ ht => subst ht; exact .inl rfl

theorem Effect.cells_wf {s t : State} {i : Instr} (h : Effect s i t) (hwf : Memory.wf s.cells) : Memory.wf t.cells := by
  obtain e | e | ⟨v, m, e⟩ := h.cells
  · rw [e]; exact hwf
  · rw [e]; exact Memory.below_wf hwf s.len
  · rw [e]; exact Memory.fill_wf hwf s.wp v m

theorem takeFault_cells_wf (f : CmdFault) {s : State} (hwf : Memory.wf s.cells) : Memory.wf (takeFault f s).cells := by
  rw [takeFault_cells]
  split
  · exact Memory.below_wf hwf s.len
  · exact hwf

/-- Settles O40: the three things an instruction can do to the store each keep its addresses rising (log 6). -/
theorem stepKeepsCanonicalStore : Obligations.StepKeepsCanonicalStore := by
  unfold Obligations.StepKeepsCanonicalStore
  intro s t hwf hstep
  obtain ⟨-, rfl⟩ | ⟨p, ps, -, ⟨-, rfl⟩ | ⟨-, rfl⟩ | ⟨i, -, -, heff⟩ | ⟨c, -, rfl⟩⟩ := step_cases hstep
  · exact hwf
  · exact .nil
  · exact hwf
  · exact heff.cells_wf hwf
  · exact takeFault_cells_wf _ hwf

/-! ### Committed memory -/

/-- No instruction lowers LEN: only a commit moves it, up to WP (R28 item 4). -/
theorem Effect.len_le {s t : State} {i : Instr} (h : Effect s i t) (hle : s.len ≤ s.wp) : s.len ≤ t.len := by
  cases h with
  | xrEnd _ _ _ ht => exact ht ▸ hle
  | xrEndHalt _ _ _ _ ht => exact ht ▸ Nat.le_succ_of_le hle
  | unit _ _ ht | step _ _ _ _ ht => exact ht ▸ Nat.le_of_eq (stepOver_len s _).symm
  | run _ _ _ _ ht | runFull _ _ _ _ ht | runIllegal _ _ _ ht | xrEndFull _ _ _ _ ht | xrAbort _ _ ht
  | stepOut _ _ _ ht | fetchOut _ _ _ ht | pcLoad _ _ ht | cpuReset _ _ ht | fetch _ _ _ _ ht | rdPc _ _ ht
  | rdIr _ _ ht | rdLen _ _ ht => exact Nat.le_of_eq (congrArg State.len ht).symm

/-- Only RST asks for a reset (R230). -/
theorem rst_of_request_reset {c : Config} {p : PortsIn} (h : p.request c = .reset) : p.rst = true := by
  simp only [PortsIn.request] at h
  split at h
  · assumption
  · split at h
    · split at h <;> cases h
    · cases h

/-- Settles O42: without RST only an instruction or a reserved code changes the machine, and neither writes below LEN or lowers
it (R28 item 4, R53). -/
theorem committedCellsNeverChange : Obligations.CommittedCellsNeverChange := by
  unfold Obligations.CommittedCellsNeverChange
  intro s t hinv hrst hstep
  obtain ⟨-, rfl⟩ | ⟨p, ps, hin, ⟨hreq, -⟩ | ⟨-, rfl⟩ | ⟨i, -, -, heff⟩ | ⟨c, -, rfl⟩⟩ := step_cases hstep
  · exact ⟨Nat.le_refl _, fun _ _ => rfl⟩
  · exact absurd (rst_of_request_reset hreq) (by simp [hrst p ps hin])
  · exact ⟨Nat.le_refl _, fun _ _ => rfl⟩
  · exact ⟨heff.len_le hinv.len_le_wp, fun a ha => (heff.writes (hinv.setInputs ps).len_le_wp).committed ha⟩
  · exact ⟨Nat.le_refl _, fun _ _ => rfl⟩

end Sys2Proof.Machine

/-! SUPPORT. Proofs about the step and what it runs (`00_scope.md` section 5, `30_encoding.md` sections 1 and 7): the command on
the ports, the instruction in a cell or in a run word, and what a command ignores. -/

namespace Sys2Proof.Machine

/-! ### The command on the ports -/

/-- Settles O5: the three ways a step finds its sample, each by its own lemma (R7, R85; log 1). -/
theorem stepRunsTheDecodedCommand : Obligations.StepRunsTheDecodedCommand := by
  unfold Obligations.StepRunsTheDecodedCommand
  refine ⟨fun s p ps i hin hr hv hd => ?_, fun s p ps => step_of_idle, fun s hin => ?_⟩
  · rw [decode_command] at hd
    exact step_of_decodes hin hr hv hd
  · simp only [step, State.sample, hin]

/-- IllegalCommand's DATA has ARG_W bits, where the code does not fit too (log 19). -/
theorem illegalCommand_info_lt (s : State) (cmd : BitVec 4) :
    CmdFault.info s (.illegalCommand cmd) < 2 ^ s.cfg.argW := by
  rw [CmdFault.info]
  split
  · assumption
  · exact Nat.mod_lt _ (Nat.two_pow_pos _)

/-- Settles O9: the fault of a reserved code drops nothing, and its information word fits the port at every width (log 19). -/
theorem reservedCommandOnANarrowPort : Obligations.ReservedCommandOnANarrowPort := by
  unfold Obligations.ReservedCommandOnANarrowPort
  exact fun s p ps hin hr hv hc _ =>
    ⟨_, illegalCommand_info_lt (s.setInputs ps) p.cmd, step_of_reserved hin hr hv (.inr hc)⟩

/-! ### The unit instructions -/

/-- Settles O11: Compute is the step over its word, which is 0 and no Halt (R142; log 10). -/
theorem computeResult : Obligations.ComputeResult := by
  unfold Obligations.ComputeResult
  refine ⟨by decide, fun s => ⟨?_, ?_⟩⟩
  · rw [← unitWord_compute s.cfg]; rfl
  · rw [← unitWord_compute s.cfg]
    exact congrArg Host.Outcome.next (stepOver_unit s .compute)

/-- Settles O12: IoWait is the step over its word, kind code 1 above zeros (R143; log 10). -/
theorem ioWaitResult : Obligations.IoWaitResult := by
  unfold Obligations.IoWaitResult
  refine ⟨by decide, fun s => ⟨?_, ?_⟩⟩
  · rw [← unitWord_ioWait]; rfl
  · rw [← unitWord_ioWait]
    exact congrArg Host.Outcome.next (stepOver_unit s .ioWait)

/-- Settles O13: Halt is the step over its word, kind code 2 above zeros, which leaves IR (R144; log 10). -/
theorem haltResult : Obligations.HaltResult := by
  unfold Obligations.HaltResult
  refine ⟨by decide, fun s => ⟨?_, ?_⟩⟩
  · rw [← unitWord_halt]; rfl
  · rw [← unitWord_halt]
    exact congrArg Host.Outcome.next (stepOver_unit s .halt)

/-! ### The instruction in a cell, and the one in a run word -/

/-- STEP executes the unit instruction the committed cell at PC decodes to (R140). -/
theorem exec_step_of_decode {s : State} {w : Nat} {u : Instr} (arg : Nat) (hpc : s.pc < s.len)
    (hw : Memory.read s.cells s.pc = some w) (hd : decode s.cfg (.unit w) = .ok u) :
    exec (.step arg) s = exec u s := by
  obtain ⟨k, rfl, rfl⟩ := decode_unit_ok_iff.1 hd
  rw [exec_step_cell arg (memRead_cell_iff.2 ⟨hpc, hw⟩), exec_unitInstr]

/-- XR_RUN executes the run instruction its operand decodes to (R114). -/
theorem exec_xrRun_of_decode {s : State} {arg : Nat} {r : Instr} (hd : decode s.cfg (.run (s.runOperand arg)) = .ok r) :
    exec (.xrRun arg) s = exec r s := by
  obtain ⟨k, n, hn, hword, rfl⟩ := decode_run_ok_iff.1 hd
  have hrun : runOfWord s.cfg (s.runOperand arg) = some (k, n) := by
    rw [hword, runOfWord_runWord, Nat.mod_eq_of_lt (Config.le_maxRepeat_iff.1 hn)]
  rw [exec_xrRun_run hrun, exec_runInstr]

/-- Settles O7: a word that decodes in its place is what the command with that place executes (R140, R114; log 10). -/
theorem stepAndXrRunExecuteTheirInstruction : Obligations.StepAndXrRunExecuteTheirInstruction := by
  unfold Obligations.StepAndXrRunExecuteTheirInstruction
  exact ⟨fun s arg w u => exec_step_of_decode arg, fun s arg r => exec_xrRun_of_decode⟩

/-! ### The model's interface for a bare table word -/

/-- A word placed is the one the next STEP fetches: its cell is committed (log 9). -/
theorem placeAtPc_fetches (s : State) (w : Nat) :
    (s.placeAtPc w).pc < (s.placeAtPc w).len ∧ Memory.read (s.placeAtPc w).cells (s.placeAtPc w).pc = some w := by
  constructor
  · exact Nat.lt_of_lt_of_le (Nat.lt_succ_self _) (Nat.le_max_right _ _)
  · exact Memory.read_write_self _ _ _

/-- An offered command of R86 is what the step executes, with the bits of its argument that the port has. -/
theorem step_offer_row {s : State} {cmd : BitVec 4} {arg : Nat} {i : Instr} (h : CommandRow (arg % 2 ^ s.cfg.argW) cmd i) :
    step (s.offer cmd arg) = exec i s := step_offer h.decodes

/-- Where a table word decodes, its code word does, to the same instruction. -/
theorem decodeTableWordAt_eq_some {c : Config} {nbits w : Nat} {i : Instr} (h : decodeTableWordAt c nbits w = some i) :
    ∃ d, codeOfTableWord c nbits w = some d ∧ decode c d = .ok i := by
  rw [decodeTableWordAt] at h
  split at h
  · cases h
  · rename_i d hd
    split at h
    · rename_i hok; cases h; exact ⟨d, hd, hok⟩
    · cases h

/-- Settles O6: a unit word placed at PC is what the offered STEP executes, a run word what the offered XR_RUN does, and a
command is offered as it is (logs 8 and 9). -/
theorem fetchWordRunsNext : Obligations.FetchWordRunsNext := by
  unfold Obligations.FetchWordRunsNext
  intro s nbits w i hi
  obtain ⟨d, hcode, hd⟩ := decodeTableWordAt_eq_some hi
  simp only [State.withFetchWord, hcode]
  cases d with
  | unit v =>
    obtain ⟨hpc, hcell⟩ := placeAtPc_fetches s v
    exact (step_offer_row .step).trans (exec_step_of_decode _ hpc hcell hd)
  | run v =>
    obtain ⟨k, n, -, rfl, -⟩ := decode_run_ok_iff.1 hd
    refine (step_offer_row .xrRun).trans (exec_xrRun_of_decode ?_)
    rw [runOperand_mod, runOperand_of_lt (runWord_lt s.cfg k n)]
    exact hd
  | command v =>
    obtain ⟨cmd, a, ha, rfl, hrow⟩ := decode_command_ok_iff.1 hd
    have hrow' : CommandRow (argField s.cfg (commandWord s.cfg cmd a) % 2 ^ s.cfg.argW)
        (cmdField s.cfg (commandWord s.cfg cmd a)) i := by
      rwa [cmdField_commandWord, argField_commandWord, Nat.mod_mod, Nat.mod_eq_of_lt ha]
    exact step_offer_row hrow'

/-! ### What a command does not look at -/

/-- XR_RUN looks at its operand alone (R85). -/
theorem exec_xrRun_congr {s : State} {a b : Nat} (h : s.runOperand a = s.runOperand b) :
    exec (.xrRun a) s = exec (.xrRun b) s := by
  simp only [exec, execXrRun, h]

/-- FETCH looks at its operand alone (R85). -/
theorem exec_fetch_congr {s : State} {a b : Nat} (h : s.addrOperand a = s.addrOperand b) :
    exec (.fetch a) s = exec (.fetch b) s := by
  simp only [exec, execFetch, h]

/-- PC_LOAD looks at its operand alone (R85). -/
theorem exec_pcLoad_congr {s : State} {a b : Nat} (h : s.addrOperand a = s.addrOperand b) :
    exec (.pcLoad a) s = exec (.pcLoad b) s := by
  simp only [exec, execPcLoad, h]

/-- A sample asks for the same whatever its argument has above the port's bits (R85; log 20). -/
theorem request_congr {c : Config} {rst valid : Bool} {cmd : BitVec 4} {a b : Nat} (h : a % 2 ^ c.argW = b % 2 ^ c.argW) :
    PortsIn.request c ⟨rst, valid, cmd, a⟩ = PortsIn.request c ⟨rst, valid, cmd, b⟩ := by
  have hword : commandWord c cmd a = commandWord c cmd b := by rw [commandWord, commandWord, h]
  unfold PortsIn.request
  dsimp only
  rw [hword]
  rfl

/-- Settles O28: seven commands do not name their argument, three look at an operand of it, and a sample's number reaches the
step through the port's bits alone (R85, R86; log 20). -/
theorem ignoredArgumentHasNoEffect : Obligations.IgnoredArgumentHasNoEffect := by
  unfold Obligations.IgnoredArgumentHasNoEffect
  refine ⟨fun s a b => ⟨rfl, rfl, rfl, rfl, rfl, rfl, rfl, exec_xrRun_congr, fun h => ?_⟩,
    fun s rst valid cmd a b ps h => ?_⟩
  · exact ⟨exec_pcLoad_congr h, exec_fetch_congr h⟩
  · simp only [step, State.sample, request_congr h]
    rfl

end Sys2Proof.Machine

/-! SUPPORT. Proofs about the run instructions and the XR's frame (`40_expansion.md` section 2): R115 to R117 and R123. -/

namespace Sys2Proof.Machine

/-! ### The run instructions -/

/-- The word of a count that fits is the kind's base plus the count (R82). -/
theorem runWord_of_le {c : Config} {n : Nat} (hn : n ≤ c.maxRepeat) (k : Kind) : runWord c k n = k.unitWord c + n := by
  rw [runWord, fieldsWord, Nat.mod_eq_of_lt (Config.le_maxRepeat_iff.1 hn), unitWord_eq]

/-- A run instruction that fits is appended (R114). -/
theorem exec_runInstr_fits (k : Kind) {n : Nat} {s : State} (h : s.wp + max n 1 ≤ s.cfg.memCells) :
    ∃ t, exec (k.runInstr n) s = .next t ∧ Appended (k.unitWord s.cfg) (max n 1) s t :=
  ⟨_, exec_runInstr k n s, appendRun_appended k h⟩

/-- A run instruction that does not fit drops the pending program (R114). -/
theorem exec_runInstr_full (k : Kind) {n : Nat} {s : State} (h : s.cfg.memCells < s.wp + max n 1) :
    ∃ t, exec (k.runInstr n) s = .next t ∧ PendingDropped .storeFull s.len s t :=
  ⟨_, exec_runInstr k n s, appendRun_storeFull k h⟩

/-- Settles O18: the three run instructions are one meaning at three kinds, whose room at WP decides (R115 to R117; logs 10
and 11). -/
theorem runInstructionsResult : Obligations.RunInstructionsResult := by
  unfold Obligations.RunInstructionsResult
  intro s n
  simp only [← unitWord_halt]
  simp only [← unitWord_ioWait]
  refine ⟨fun hn => ⟨?_, ?_, ?_⟩, fun hfits => ⟨?_, ?_, ?_⟩, fun hfull => ⟨?_, ?_, ?_⟩⟩
  · rw [encode, runWord_of_le hn, unitWord_compute, Nat.zero_add]
  · rw [encode, runWord_of_le hn]
  · rw [encode, runWord_of_le hn]
  · rw [← unitWord_compute s.cfg]; exact exec_runInstr_fits .compute hfits
  · exact exec_runInstr_fits .ioWait hfits
  · exact exec_runInstr_fits .halt hfits
  · exact exec_runInstr_full .compute hfull
  · exact exec_runInstr_full .ioWait hfull
  · exact exec_runInstr_full .halt hfull

/-! ### The closing Halt -/

/-- After an append the kind appended says whether the pending program ends in a Halt (R118). -/
theorem Appended.pendingEndsInHalt {s t : State} {k : Kind} {m : Nat} (h : Appended (k.unitWord s.cfg) m s t)
    (hle : s.len ≤ s.wp) (hm : 0 < m) : t.pendingEndsInHalt = some (k == .halt) := by
  have hpending : t.len < t.wp := by rw [h.len, h.wp]; omega
  have hlast : Memory.read t.cells (t.wp - 1) = some (k.unitWord s.cfg) := by
    rw [h.wp]; exact h.written _ (by omega) (by omega)
  rw [pendingEndsInHalt_eq, if_pos hpending, hlast, Option.map_some, h.cfg, isHalt_unitWord]

/-- The Halt that XR_END adds is committed at WP (R118). -/
theorem exec_xrEnd_open {s : State} (arg : Nat) (h : s.pendingEndsInHalt = some false)
    (hfits : s.wp + 1 ≤ s.cfg.memCells) :
    ∃ u, exec (.xrEnd arg) s = .next u ∧ u.len = s.wp + 1 ∧ u.wp = u.len ∧
      Memory.read u.cells s.wp = some (Kind.unitWord s.cfg .halt) :=
  ⟨_, exec_xrEnd_fits arg h hfits, rfl, rfl, read_append_last s .halt Nat.one_pos⟩

/-- Settles O19: the last cell appended is one of the run's kind, which decides what XR_END does (R115 to R118). -/
theorem lastRunDecidesTheClosingHalt : Obligations.LastRunDecidesTheClosingHalt := by
  unfold Obligations.LastRunDecidesTheClosingHalt
  intro s t n a hle hfits
  have ends : ∀ k : Kind, exec (k.runInstr n) s = .next t →
      t.cfg = s.cfg ∧ t.pendingEndsInHalt = some (k == .halt) := by
    intro k hexec
    obtain ⟨u, hu, happ⟩ := exec_runInstr_fits k hfits
    obtain rfl : u = t := by rw [hu] at hexec; cases hexec; rfl
    exact ⟨happ.cfg, happ.pendingEndsInHalt hle (runLength_pos n)⟩
  have endsOpen : exec (.runCompute n) s = .next t ∨ exec (.runIoWait n) s = .next t →
      t.cfg = s.cfg ∧ t.pendingEndsInHalt = some false := by
    rintro (hexec | hexec)
    · exact ends .compute hexec
    · exact ends .ioWait hexec
  constructor
  · intro hexec
    exact ⟨_, exec_xrEnd_closed a (ends .halt hexec).2, rfl, rfl, rfl⟩
  · intro hexec hroom
    obtain ⟨hcfg, hopen⟩ := endsOpen hexec
    rw [← hcfg] at hroom ⊢
    rw [← unitWord_halt]
    exact exec_xrEnd_open a hopen hroom

/-! ### What the XR leaves alone -/

/-- No instruction reads the sample after its own, or changes a parameter (R6). -/
theorem Effect.cfg_inputs {s t : State} {i : Instr} (h : Effect s i t) : t.cfg = s.cfg ∧ t.inputs = s.inputs := by
  cases h with
  | unit _ _ ht | step _ _ _ _ ht => subst ht; exact ⟨stepOver_cfg s _, stepOver_inputs s _⟩
  | run _ _ _ _ ht | runFull _ _ _ _ ht | runIllegal _ _ _ ht | xrEnd _ _ _ ht | xrEndHalt _ _ _ _ ht
  | xrEndFull _ _ _ _ ht | xrAbort _ _ ht | stepOut _ _ _ ht | fetchOut _ _ _ ht | pcLoad _ _ ht | cpuReset _ _ ht
  | fetch _ _ _ _ ht | rdPc _ _ ht | rdIr _ _ ht | rdLen _ _ ht => subst ht; exact ⟨rfl, rfl⟩

/-- Only a unit instruction, on its own or by STEP, emits a record (R88). -/
theorem Effect.trace_eq {s t : State} {i : Instr} (h : Effect s i t) (hunit : ∀ k : Kind, i ≠ k.unitInstr)
    (hstep : ∀ a, i ≠ .step a) : t.trace = s.trace := by
  cases h with
  | unit k hi _ => exact absurd hi (hunit k)
  | step a _ hi _ _ => exact absurd hi (hstep a)
  | run _ _ _ _ ht | runFull _ _ _ _ ht | runIllegal _ _ _ ht | xrEnd _ _ _ ht | xrEndHalt _ _ _ _ ht
  | xrEndFull _ _ _ _ ht | xrAbort _ _ ht | stepOut _ _ _ ht | fetchOut _ _ _ ht | pcLoad _ _ ht | cpuReset _ _ ht
  | fetch _ _ _ _ ht | rdPc _ _ ht | rdIr _ _ ht | rdLen _ _ ht => subst ht; rfl

/-- The instructions of the XR: those that write pending cells, and XR_ABORT (R123). -/
def IsRouter (i : Instr) : Prop := WritesPending i ∨ ∃ a, i = .xrAbort a

theorem IsRouter.ne_unitInstr {i : Instr} (h : IsRouter i) (k : Kind) : i ≠ k.unitInstr := by
  rintro rfl
  cases k <;> simp [IsRouter, WritesPending, Kind.unitInstr] at h

theorem IsRouter.ne_sequencer {i : Instr} (h : IsRouter i) (a : Nat) :
    i ≠ .step a ∧ i ≠ .pcLoad a ∧ i ≠ .cpuReset a := by
  refine ⟨?_, ?_, ?_⟩ <;> rintro rfl <;> simp [IsRouter, WritesPending] at h

/-- No effect of an XR instruction is a write of PC or IR in R30's table. -/
theorem Writes.pc_ir_of_router {s t : State} {i : Instr} (h : Writes s i t) (hi : IsRouter i) :
    t.pc = s.pc ∧ t.ir = s.ir := by
  cases h with
  | stepOver k hk _ =>
    obtain rfl | ⟨-, -, a, rfl⟩ := hk
    · exact absurd rfl (hi.ne_unitInstr k)
    · exact absurd rfl (hi.ne_sequencer a).1
  | router h => exact ⟨h.pc, h.ir⟩
  | pcLoad a ha _ => exact absurd ha (hi.ne_sequencer a).2.1
  | cpuReset a ha _ => exact absurd ha (hi.ne_sequencer a).2.2
  | nothing h => exact ⟨h.pc, h.ir⟩

/-- Settles O23: R30's table says what an XR instruction writes, and it emits no record (R123). -/
theorem routerLeavesSequencerAlone : Obligations.RouterLeavesSequencerAlone := by
  unfold Obligations.RouterLeavesSequencerAlone
  intro s t i hle hi hexec
  have hrouter : IsRouter i := by
    obtain hrun | ⟨w, h | h | h⟩ := hi
    · exact .inl (.inl hrun)
    · exact .inl (.inr ⟨w, .inl h⟩)
    · exact .inl (.inr ⟨w, .inr h⟩)
    · exact .inr ⟨w, h⟩
  have heff := exec_effect hexec
  have hw := heff.writes hle
  obtain ⟨hpc, hir⟩ := hw.pc_ir_of_router hrouter
  obtain ⟨hcfg, hinputs⟩ := heff.cfg_inputs
  have htrace := heff.trace_eq hrouter.ne_unitInstr fun a => (hrouter.ne_sequencer a).1
  refine ⟨hpc, hir, htrace, hcfg, hinputs, fun hend => ?_, fun a => hw.committed⟩
  by_contra hne
  obtain ⟨a, ha⟩ := hw.len hne
  exact hend a ha

end Sys2Proof.Machine

/-! SUPPORT. Proofs about the output ports of any step (`30_encoding.md` section 1): the pulses are what the histories gain, and
they fit the ports. -/

namespace Sys2Proof.Machine

/-! ### What a step adds to the histories -/

theorem Outputs.records_length {s : State} {arg : Nat} {cmd : BitVec 4} {r : Response} {recs : List TraceRecord}
    (h : Outputs s arg cmd r recs) : recs.length ≤ 1 := by
  cases h with
  | stepped => exact Nat.le_refl 1
  | _ => exact Nat.zero_le 1

/-- A step puts nothing out, or it has taken a command and puts out what the tables give (R85, R87, R88). -/
theorem step_putsOut {s t : State} (h : step s = .next t) :
    (t.responses = s.responses ∧ t.trace = s.trace) ∨
    ∃ ps arg cmd, PutsOut (s.setInputs ps) arg cmd t := by
  cases hin : s.inputs with
  | nil =>
    simp only [step, State.sample, hin] at h
    cases h
    exact .inl ⟨rfl, rfl⟩
  | cons p ps =>
    cases hr : p.rst with
    | true => rw [step_of_rst hin hr] at h; cases h; exact .inl ⟨rfl, rfl⟩
    | false =>
      cases hv : p.cmdValid with
      | false => rw [step_of_idle hin hr hv] at h; cases h; exact .inl ⟨rfl, rfl⟩
      | true => exact .inr ⟨ps, _, _, putsOut_of_taken hin hr hv h⟩

/-- The ports show the first element of what each history gains. -/
theorem portsOut_eq {s t : State} {rs : List Response} {recs : List TraceRecord} (hrs : t.responses = s.responses ++ rs)
    (hrecs : t.trace = s.trace ++ recs) : portsOut s t = ⟨rs.head?, recs.head?⟩ := by
  rw [portsOut, hrs, hrecs, List.drop_left, List.drop_left]

theorem toList_head?_of_length_le_one {α : Type} {l : List α} (h : l.length ≤ 1) : l.head?.toList = l := by
  match l, h with
  | [], _ => rfl
  | [_], _ => rfl

/-- Settles O32: each history gains at most one element in a step, so its first is all of it (R85; log 4). -/
theorem portsShowWhatAStepPutsOut : Obligations.PortsShowWhatAStepPutsOut := by
  unfold Obligations.PortsShowWhatAStepPutsOut
  intro s t hstep
  obtain ⟨hresp, htrace⟩ | ⟨ps, arg, cmd, r, recs, hresp, htrace, hout⟩ := step_putsOut hstep
  · rw [portsOut_eq (rs := []) (recs := []) (by simp [hresp]) (by simp [htrace])]
    simp [hresp, htrace]
  · rw [portsOut_eq (s := s) hresp htrace]
    refine ⟨hresp, ?_⟩
    rw [toList_head?_of_length_le_one hout.records_length]
    exact htrace

/-! ### Widths -/

theorem Inv.fits_of_le_cap {s : State} (h : Inv s) {a : Nat} (ha : a ≤ s.cfg.memCells) : Fits s.cfg.addrW a :=
  Nat.lt_of_le_of_lt ha h.memCells_lt

theorem Inv.ir_fits {s : State} (h : Inv s) : Fits s.cfg.wordW s.ir := by
  obtain e | e | e := h.ir_legal
  · rw [e]; exact fieldsWord_lt _ _ _
  · rw [e]; exact unitWord_lt _ _
  · rw [e]; exact unitWord_lt _ _

theorem Inv.read_fits {s : State} (h : Inv s) {a w : Nat} (hw : Memory.read s.cells a = some w) :
    Fits s.cfg.wordW w := by
  obtain ⟨-, k, rfl⟩ := h.unit_of_read hw
  exact unitWord_lt _ _

/-- A word and an address each fit DATA (R6). -/
theorem fits_data {c : Config} {d : Nat} (h : Fits c.wordW d ∨ Fits c.addrW d) : Fits c.argW d := by
  obtain h | h := h
  · exact Nat.lt_of_lt_of_le h c.two_pow_wordW_le
  · exact Nat.lt_of_lt_of_le h c.two_pow_addrW_le

/-- DATA is always 0, a word, an address or a command code (R87). -/
theorem Outputs.data_fits {s : State} {arg : Nat} {cmd : BitVec 4} {r : Response} {recs : List TraceRecord}
    (h : Outputs s arg cmd r recs) (hinv : Inv s) : Fits s.cfg.argW r.data := by
  have hlen : Fits s.cfg.argW s.len := fits_data (.inr (hinv.fits_of_le_cap hinv.len_le_cap))
  cases h with
  | runAppended | aborted | pcLoaded | cpuReset => exact Nat.two_pow_pos _
  | runFull | endFull | committed | lenRead => exact hlen
  | stepped w _ hw | fetched w hw => exact fits_data (.inl (hinv.read_fits hw))
  | stepOut | pcRead => exact fits_data (.inr hinv.pc_width)
  | fetchOut => exact fits_data (.inr (addrOperand_lt s arg))
  | runIllegal => exact fits_data (.inl (runOperand_lt s arg))
  | irRead => exact fits_data (.inl hinv.ir_fits)
  | illegalCommand _ _ => exact illegalCommand_info_lt s cmd

/-- A record is a cell's word and PC (R88). -/
theorem Outputs.record_fits {s : State} {arg : Nat} {cmd : BitVec 4} {r : Response} {recs : List TraceRecord}
    (h : Outputs s arg cmd r recs) (hinv : Inv s) {x : TraceRecord} (hx : x ∈ recs) :
    Fits s.cfg.wordW x.op ∧ Fits s.cfg.addrW x.pc := by
  cases h with
  | stepped w _ hw =>
    obtain rfl := List.mem_singleton.1 hx
    exact ⟨hinv.read_fits hw, hinv.pc_width⟩
  | _ => cases hx

/-- Settles O41: every row of the tables gives a DATA and a record that fit, from the invariant's bounds on the elements
(R85). -/
theorem outputsFitTheirPorts : Obligations.OutputsFitTheirPorts := by
  unfold Obligations.OutputsFitTheirPorts
  intro s t hinv hstep
  obtain ⟨hresp, htrace⟩ | ⟨ps, arg, cmd, r, recs, hresp, htrace, hout⟩ := step_putsOut hstep
  · rw [portsOut_eq (rs := []) (recs := []) (by simp [hresp]) (by simp [htrace])]
    exact ⟨nofun, nofun, nofun⟩
  · have hinv' := hinv.setInputs ps
    rw [portsOut_eq (s := s) hresp htrace]
    refine ⟨?_, fun x hx => ?_, fun x hx => ?_⟩
    · rintro _ ⟨⟩
      exact hout.data_fits hinv'
    · exact (hout.record_fits hinv' (List.mem_of_head? hx)).1
    · exact (hout.record_fits hinv' (List.mem_of_head? hx)).2

end Sys2Proof.Machine

/-! SUPPORT. Proofs about what the sequencer and the host see of the store (`20_memory.md` section 9, `60_exceptions.md`
section 5): a pending program is invisible, a commit is seen at once. -/

namespace Sys2Proof.Machine

/-! ### Another pending program -/

/-- The same machine with another WP and other cells (R62). -/
def State.withPending (s : State) (m : Memory) (wp' : Nat) : State := { s with cells := m, wp := wp' }

/-- Below LEN a read finds the same cell, and from LEN on it finds none (R52). -/
theorem memRead_withPending {s : State} {m : Memory} (hm : ∀ a, a < s.len → Memory.read m a = Memory.read s.cells a)
    (wp' a : Nat) : (s.withPending m wp').memRead a = s.memRead a := by
  obtain ha | ha := Nat.lt_or_ge a s.len
  · exact memRead_congr rfl rfl (hm a ha)
  · rw [memRead_outOfRange_iff.2 ha]
    exact memRead_outOfRange_iff.2 ha

theorem stepOver_withPending (s : State) (m : Memory) (wp' : Nat) (k : Kind) :
    (s.withPending m wp').stepOver (k.unitWord (s.withPending m wp').cfg) =
      (s.stepOver (k.unitWord s.cfg)).withPending m wp' := by
  rw [stepOver_unit, stepOver_unit]
  rfl

theorem exec_unitInstr_withPending {s t : State} {k : Kind} (m : Memory) (wp' : Nat)
    (h : exec k.unitInstr s = .next t) :
    exec k.unitInstr (s.withPending m wp') = .next (t.withPending m wp') := by
  rw [exec_unitInstr] at h
  cases h
  rw [exec_unitInstr, stepOver_withPending]

/-- A FETCH that answers has read a committed cell, or is OutOfRange (R171). -/
theorem exec_fetch_cases {s t : State} {arg : Nat} (h : exec (.fetch arg) s = .next t) :
    (∃ k, s.memRead (s.addrOperand arg) = .cell k ∧ t = s.respond .ok (k.unitWord s.cfg)) ∨
    (s.len ≤ s.addrOperand arg ∧ t = takeFault (.outOfRange (s.addrOperand arg)) s) := by
  cases hm : s.memRead (s.addrOperand arg) with
  | cell k =>
    rw [exec_fetch_cell hm] at h
    cases h
    exact .inl ⟨k, rfl, rfl⟩
  | outOfRange =>
    have hout := memRead_outOfRange_iff.1 hm
    rw [exec_fetch_outOfRange hout] at h
    cases h
    exact .inr ⟨hout, rfl⟩
  | stuck f => simp only [exec, execFetch, hm] at h; cases h

section
variable {s t : State} {m : Memory} {arg : Nat} (hm : ∀ a, a < s.len → Memory.read m a = Memory.read s.cells a)
include hm

theorem exec_step_withPending (wp' : Nat) (h : exec (.step arg) s = .next t) :
    exec (.step arg) (s.withPending m wp') = .next (t.withPending m wp') := by
  obtain ⟨k, hk, rfl⟩ | ⟨hout, rfl⟩ := exec_step_cases h
  · rw [exec_step_cell arg ((memRead_withPending hm wp' s.pc).trans hk), stepOver_withPending]
  · exact exec_step_outOfRange (s := s.withPending m wp') arg hout

theorem exec_fetch_withPending (wp' : Nat) (h : exec (.fetch arg) s = .next t) :
    exec (.fetch arg) (s.withPending m wp') = .next (t.withPending m wp') := by
  obtain ⟨k, hk, rfl⟩ | ⟨hout, rfl⟩ := exec_fetch_cases h
  · exact exec_fetch_cell ((memRead_withPending hm wp' (s.addrOperand arg)).trans hk)
  · exact exec_fetch_outOfRange (s := s.withPending m wp') hout

end

/-- Settles O34: STEP and FETCH read committed cells alone, the other commands of the SEQ and of the host read none, and none
of them looks at WP (R57, R62, R235). -/
theorem pendingProgramIsInvisible : Obligations.PendingProgramIsInvisible := by
  unfold Obligations.PendingProgramIsInvisible
  intro s m wp' i hm hi t h
  obtain rfl | rfl | rfl | ⟨a, rfl | rfl | rfl | rfl | rfl | rfl | rfl⟩ := hi
  · exact exec_unitInstr_withPending (k := .compute) m wp' h
  · exact exec_unitInstr_withPending (k := .ioWait) m wp' h
  · exact exec_unitInstr_withPending (k := .halt) m wp' h
  · exact exec_step_withPending hm wp' h
  · cases h; rfl
  · cases h; rfl
  · exact exec_fetch_withPending hm wp' h
  · cases h; rfl
  · cases h; rfl
  · cases h; rfl

/-! ### A commit is seen at once -/

/-- The ways an XR_END can end (R118). -/
theorem exec_xrEnd_cases {s t : State} {arg : Nat} (h : exec (.xrEnd arg) s = .next t) :
    (s.pendingEndsInHalt = some true ∧ t = s.commit) ∨
    (s.pendingEndsInHalt = some false ∧ s.wp + 1 ≤ s.cfg.memCells ∧ t = (s.append .halt 1).commit) ∨
    (s.pendingEndsInHalt = some false ∧ s.cfg.memCells < s.wp + 1 ∧ t = takeFault .storeFull s) := by
  simp only [exec, execXrEnd] at h
  split at h
  · cases h
  · rename_i hp; cases h; exact .inl ⟨hp, rfl⟩
  · rename_i hp
    cases h
    by_cases hf : s.fits 1 = true
    · exact .inr (.inl ⟨hp, fits_iff.1 hf, if_pos hf⟩)
    · exact .inr (.inr ⟨hp, Nat.lt_of_not_le fun h' => hf (fits_iff.2 h'), if_neg hf⟩)

/-- The commands keep the invariant (R28). -/
theorem Inv.of_exec {s t : State} {cmd : BitVec 4} {a : Nat} {i : Instr} (h : Inv s) (hrow : CommandRow a cmd i)
    (hexec : exec i s = .next t) : Inv t :=
  (exec_effect hexec).inv h hrow.ne_unitInstr

/-- XR_END raises LEN exactly when it answers OK: it commits the pending cells, and a Halt more where they lack one (R118). -/
theorem exec_xrEnd_committed {s t : State} {arg : Nat} (hinv : Inv s) (h : exec (.xrEnd arg) s = .next t)
    (hok : t.responses = s.responses ++ [⟨.ok, s.len⟩]) :
    s.len < t.len ∧ ∀ a, a < s.wp → Memory.read t.cells a = Memory.read s.cells a := by
  have hle := hinv.len_le_wp
  obtain ⟨hp, rfl⟩ | ⟨-, -, rfl⟩ | ⟨-, -, rfl⟩ := exec_xrEnd_cases h
  · exact ⟨(hinv.halt_of_pendingEndsInHalt hp).1, fun _ _ => rfl⟩
  · exact ⟨Nat.lt_succ_of_le hle, fun a ha => (append_appended s .halt 1).others a (.inl ha)⟩
  · simp [CmdFault.status] at hok

/-- FETCH of a committed address answers the cell's word (R171). -/
theorem Inv.exec_fetch {s : State} (h : Inv s) {a : Nat} (ha : a < s.len) :
    ∃ k : Kind, Memory.read s.cells a = some (k.unitWord s.cfg) ∧
      exec (.fetch a) s = .next (s.respond .ok (k.unitWord s.cfg)) := by
  have haddr : s.addrOperand a = a :=
    addrOperand_of_lt (h.fits_of_le_cap (Nat.le_of_lt (Nat.lt_of_lt_of_le ha h.len_le_cap)))
  obtain ⟨k, hk⟩ := h.memRead_cell ha
  exact ⟨k, (memRead_cell_iff.1 hk).2, exec_fetch_cell (by rw [haddr]; exact hk)⟩

/-- Settles O35: the state after the commit meets the invariant, so FETCH answers its committed cells, which are the pending
ones with a Halt at the end (R57, R62). -/
theorem commitIsSeenByTheNextFetch : Obligations.CommitIsSeenByTheNextFetch := by
  unfold Obligations.CommitIsSeenByTheNextFetch
  intro s t arg hinv hexec hok
  obtain ⟨hgrown, hcells⟩ := exec_xrEnd_committed hinv hexec hok
  have hcfg : t.cfg = s.cfg := (exec_effect hexec).cfg_inputs.1
  have hinv' : Inv t := hinv.of_exec .xrEnd hexec
  refine ⟨hgrown, fun a _ ha => ?_⟩
  obtain ⟨k, hk, hfetch⟩ := hinv'.exec_fetch ha
  refine ⟨_, hfetch, fun hpending => ?_, fun hlast => ?_⟩
  · rw [← hcells a hpending]; exact hk
  · have hclosed := hinv'.closed (Nat.lt_of_le_of_lt (Nat.zero_le a) ha)
    rw [← hlast, Nat.add_sub_cancel, hk] at hclosed
    rw [Option.some.inj hclosed, unitWord_halt, hcfg]

/-- Settles O36: OutOfRange leaves the machine as it was, so it repeats, and a commit that puts PC below LEN gives the STEP a
unit instruction to step over (R146, R208). -/
theorem outOfRangeIsCuredByACommit : Obligations.OutOfRangeIsCuredByACommit := by
  unfold Obligations.OutOfRangeIsCuredByACommit
  intro s a b hinv hpc
  have hsame := sameMachine_takeFault (f := .outOfRange s.pc) rfl s
  refine ⟨_, exec_step_outOfRange a hpc, hsame, ⟨_, exec_step_outOfRange a hpc, ?_, ?_⟩, fun c hexec hin => ?_⟩
  · exact hsame.trans (sameMachine_takeFault rfl _)
  · simp [CmdFault.status, CmdFault.info]
  · have hinvFault : Inv (takeFault (.outOfRange s.pc) s) := hinv.takeFault _
    have hinv' : Inv c := hinvFault.of_exec .xrEnd hexec
    have hrouter : IsRouter (.xrEnd b) := .inl (writesPending_xrEnd b)
    have hpc' : c.pc = s.pc := (((exec_effect hexec).writes hinvFault.len_le_wp).pc_ir_of_router hrouter).1
    rw [← hpc'] at hin ⊢
    obtain ⟨k, hk⟩ := hinv'.memRead_cell hin
    exact ⟨_, _, exec_step_cell a hk, stepOver_responses c _, stepOver_pc c _⟩

end Sys2Proof.Machine

/-! SUPPORT. Proofs about the source's contracts (`40_expansion.md` section 1, `30_encoding.md` section 6): expand (R110), construct
(R112, R113) and the splitting of long runs (R93). -/

namespace Sys2Proof.Machine

/-! ### expand -/

theorem eq_unit_of_mem_expand {r u : Run} (h : u ∈ expand r) : u = Run.unit r.kind := List.eq_of_mem_replicate h

theorem expand_unit (k : Kind) : expand (Run.unit k) = [Run.unit k] := rfl

/-- Settles O44: `expand` is `runLength` copies of the kind's unit (R110). -/
theorem expandGivesMaxCountUnits : Obligations.ExpandGivesMaxCountUnits := by
  unfold Obligations.ExpandGivesMaxCountUnits
  exact fun r => ⟨length_expand r, fun u => eq_unit_of_mem_expand, expand_unit⟩

/-! ### construct -/

theorem closeTape_of_endsInHalt {t : List Run} (h : endsInHalt t = true) : closeTape t = t := if_pos h

theorem closeTape_of_not_endsInHalt {t : List Run} (h : endsInHalt t = false) : closeTape t = t ++ [Run.unit .halt] :=
  if_neg (Bool.eq_false_iff.1 h)

theorem endsInHalt_iff {t : List Run} : endsInHalt t = true ↔ ∃ u, t.getLast? = some u ∧ u.isHalt = true := by
  simp only [endsInHalt_eq_true_iff, Run.isHalt_iff]

/-- A closed tape ends in a Halt, so it is not empty (R112). -/
theorem endsInHalt_closeTape (t : List Run) : endsInHalt (closeTape t) = true := by
  cases h : endsInHalt t with
  | true => rw [closeTape_of_endsInHalt h, h]
  | false =>
    rw [closeTape_of_not_endsInHalt h, endsInHalt_iff]
    exact ⟨_, List.getLast?_concat, rfl⟩

/-- Settles O45: whether the expansions end in a Halt decides the append, and either way the tape ends in one (R112, R113). -/
theorem constructClosesTheTape : Obligations.ConstructClosesTheTape := by
  unfold Obligations.ConstructClosesTheTape
  refine fun rs => ⟨endsInHalt_iff.1 (endsInHalt_closeTape _),
    fun h => closeTape_of_endsInHalt (endsInHalt_iff.2 h), fun h => closeTape_of_not_endsInHalt ?_⟩
  rw [Bool.eq_false_iff]
  intro hend
  obtain ⟨u, hlast, hhalt⟩ := endsInHalt_iff.1 hend
  rw [h u hlast] at hhalt
  cases hhalt

/-! ### Splitting a long run -/

/-- The largest count is not 0 where the repeat field has a bit (R6). -/
theorem one_le_maxRepeat {c : Config} (h : 1 ≤ c.repeatW) : 1 ≤ c.maxRepeat :=
  Config.le_maxRepeat_iff.2 (Nat.one_lt_two_pow (Nat.one_le_iff_ne_zero.1 h))

/-- A run of count `n > 0` expands to `n` units. -/
theorem expand_of_pos {k : Kind} {n : Nat} (h : 1 ≤ n) : expand ⟨k, n⟩ = List.replicate n (Run.unit k) := by
  rw [expand, runLength, Nat.max_eq_left h]

/-- `q` runs of `m` units expand to `q * m` units. -/
theorem flatMap_expand_replicate {k : Kind} {m : Nat} (hm : 1 ≤ m) (q : Nat) :
    (List.replicate q (⟨k, m⟩ : Run)).flatMap expand = List.replicate (q * m) (Run.unit k) := by
  rw [List.flatMap_replicate, expand_of_pos hm, List.flatten_replicate_replicate]

/-- The run of the remainder, none where it is 0 (R93). -/
theorem flatMap_expand_remainder (k : Kind) (n : Nat) :
    (if n = 0 then [] else [(⟨k, n⟩ : Run)]).flatMap expand = List.replicate n (Run.unit k) := by
  split
  · rename_i h; rw [h]; rfl
  · rename_i h
    rw [List.flatMap_singleton, expand_of_pos (Nat.one_le_iff_ne_zero.2 h)]

/-- The parts of a split run have its units (R93). -/
theorem flatMap_expand_split {c : Config} (hc : 1 ≤ c.repeatW) (r : Run) : (r.split c).flatMap expand = expand r := by
  have hm := one_le_maxRepeat hc
  rw [Run.split]
  split
  · rw [List.flatMap_singleton]
  · rename_i hlong
    have hsum : r.rep / c.maxRepeat * c.maxRepeat + r.rep % c.maxRepeat = r.rep := Nat.div_add_mod' _ _
    rw [List.flatMap_append, flatMap_expand_replicate hm, flatMap_expand_remainder, ← List.replicate_add, hsum]
    exact (expand_of_pos (Nat.le_trans hm (Nat.le_of_not_le hlong))).symm

/-- The parts of a split run fit the repeat field and keep its kind (R93). -/
theorem mem_split {c : Config} (hc : 1 ≤ c.repeatW) {r p : Run} (hp : p ∈ r.split c) :
    p.rep ≤ c.maxRepeat ∧ p.kind = r.kind := by
  rw [Run.split] at hp
  split at hp
  · rename_i hfits
    obtain rfl := List.mem_singleton.1 hp
    exact ⟨hfits, rfl⟩
  · obtain hp | hp := List.mem_append.1 hp
    · obtain rfl := List.eq_of_mem_replicate hp
      exact ⟨Nat.le_refl _, rfl⟩
    · split at hp
      · cases hp
      · obtain rfl := List.mem_singleton.1 hp
        exact ⟨Nat.le_of_lt (Nat.mod_lt _ (one_le_maxRepeat hc)), rfl⟩

/-- Settles O47: the units of the full parts and of the remainder add up to the run's, by division with remainder (R93). -/
theorem splitRunsKeepTheTape : Obligations.SplitRunsKeepTheTape := by
  unfold Obligations.SplitRunsKeepTheTape
  exact fun c r hc => ⟨flatMap_expand_split hc r, fun p => mem_split hc⟩

end Sys2Proof.Machine

/-! SUPPORT. Facts about the views of CELL (`10_state.md` R29): the words of a stretch of cells, read from the front, in two
parts, and in another store. -/

namespace Sys2Proof.Machine

theorem Memory.slice_eq (m : Memory) (a n : Nat) : Memory.slice m a n = (List.range' a n).filterMap (Memory.read m) := by
  rw [List.range'_eq_map_range, List.filterMap_map]
  rfl

@[simp] theorem Memory.slice_zero (m : Memory) (a : Nat) : Memory.slice m a 0 = [] := rfl

theorem Memory.slice_succ {m : Memory} {a w : Nat} (h : Memory.read m a = some w) (n : Nat) :
    Memory.slice m a (n + 1) = w :: Memory.slice m (a + 1) n := by
  rw [Memory.slice_eq, Memory.slice_eq, List.range'_succ, List.filterMap_cons_some h]

theorem Memory.slice_add (m : Memory) (a n k : Nat) :
    Memory.slice m a (n + k) = Memory.slice m a n ++ Memory.slice m (a + n) k := by
  rw [Memory.slice_eq, Memory.slice_eq, Memory.slice_eq, ← List.filterMap_append, List.range'_append_1]

/-- A stretch looks at its own cells alone. -/
theorem Memory.slice_congr {m m' : Memory} {a n : Nat}
    (h : ∀ b, a ≤ b → b < a + n → Memory.read m' b = Memory.read m b) : Memory.slice m' a n = Memory.slice m a n := by
  rw [Memory.slice_eq, Memory.slice_eq]
  refine List.filterMap_congr fun b hb => ?_
  obtain ⟨hle, hlt⟩ := List.mem_range'_1.1 hb
  exact h b hle hlt

/-- A stretch of cells that all hold one word. -/
theorem Memory.slice_of_read_eq {m : Memory} {w : Nat} :
    ∀ {n a : Nat}, (∀ b, a ≤ b → b < a + n → Memory.read m b = some w) → Memory.slice m a n = List.replicate n w
  | 0, _, _ => rfl
  | n + 1, a, h => by
    have ih : Memory.slice m (a + 1) n = List.replicate n w :=
      Memory.slice_of_read_eq fun b hle hlt => h b (by omega) (by omega)
    rw [Memory.slice_succ (h a (Nat.le_refl a) (by omega)), ih, List.replicate_succ]

end Sys2Proof.Machine

/-! SUPPORT. Proofs about LOAD (`42_host.md` R176, `40_expansion.md` R120): what has been sent so far stands as a pending program,
and XR_END commits it closed, or any fault drops it whole. -/

namespace Sys2Proof.Machine

/-! ### The commands of LOAD -/

theorem lastResponse_respond (s : State) (st : Status) (d : Nat) : (s.respond st d).lastResponse = some ⟨st, d⟩ :=
  List.getLast?_concat

theorem lastOk_of_lastResponse {s : State} {r : Response} (h : s.lastResponse = some r) : s.lastOk = (r.status == .ok) := by
  rw [State.lastOk, h]
  rfl

theorem lastOk_takeFault (f : CmdFault) (s : State) : (takeFault f s).lastOk = false := by
  have hlast : (takeFault f s).lastResponse = some ⟨f.status, f.info s⟩ := lastResponse_respond _ _ _
  rw [lastOk_of_lastResponse hlast]
  cases f <;> rfl

theorem load_eq (ws : List Nat) (s : State) : load ws s = sendRuns ws (s.dropPending.respond .ok 0) := by
  have habort : issue 0x3#4 0 s = .next (s.dropPending.respond .ok 0) := step_offer_row .xrAbort
  simp only [load, habort]

theorem issue_xrRun_run {s : State} {w : Nat} {k : Kind} {n : Nat} (h : runOfWord s.cfg (s.runOperand w) = some (k, n)) :
    issue 0x1#4 w s = .next (appendRun k n s) :=
  (step_offer_row .xrRun).trans (exec_xrRun_run (by rw [runOperand_mod]; exact h))

theorem issue_xrRun_illegal {s : State} {w : Nat} (h : runOfWord s.cfg (s.runOperand w) = none) :
    issue 0x1#4 w s = .next (takeFault (.illegalRun (s.runOperand w)) s) := by
  rw [← runOperand_mod] at h ⊢
  exact (step_offer_row .xrRun).trans (exec_xrRun_illegal h)

theorem sendRuns_nil (s : State) : sendRuns [] s = exec (.xrEnd (0 % 2 ^ s.cfg.argW)) s := step_offer_row .xrEnd

/-- LOAD goes on after a run answered OK (R176). -/
theorem sendRuns_of_ok {w : Nat} {ws : List Nat} {s t : State} (h : issue 0x1#4 w s = .next t) (hok : t.lastOk = true) :
    sendRuns (w :: ws) s = sendRuns ws t := by
  simp only [sendRuns, h, hok, if_true]

/-- LOAD stops at the first response that is not OK (R176). -/
theorem sendRuns_of_not_ok {w : Nat} {ws : List Nat} {s t : State} (h : issue 0x1#4 w s = .next t)
    (hbad : t.lastOk = false) : sendRuns (w :: ws) s = .next t := by
  simp only [sendRuns, h, hbad, if_neg Bool.false_ne_true]

/-! ### The words of a program -/

/-- The words sent carry the runs in their low WORD_W bits, each count in its field (R82, R85). -/
def EncodeRuns (c : Config) (ws : List Nat) (rs : List Run) : Prop :=
  rs.map (Run.word c) = ws.map (· % 2 ^ c.wordW) ∧ ∀ r ∈ rs, r.rep ≤ c.maxRepeat

theorem encodeRuns_nil_iff {c : Config} {rs : List Run} : EncodeRuns c [] rs ↔ rs = [] := by
  constructor
  · rintro ⟨h, -⟩
    exact List.map_eq_nil_iff.1 h
  · rintro rfl
    exact ⟨rfl, nofun⟩

/-- The low bits of a number encode a run exactly when they are the word of one whose count fits (R82). -/
theorem runOfWord_mod_iff {c : Config} {w : Nat} {r : Run} :
    runOfWord c (w % 2 ^ c.wordW) = some (r.kind, r.rep) ↔ r.word c = w % 2 ^ c.wordW ∧ r.rep ≤ c.maxRepeat := by
  constructor
  · intro h
    obtain ⟨hrep, hword⟩ := runOfWord_eq_some (Nat.mod_lt _ (Nat.two_pow_pos _)) h
    exact ⟨hword.symm, hrep⟩
  · rintro ⟨hword, hrep⟩
    rw [← hword, Run.word, runOfWord_runWord, Nat.mod_eq_of_lt (Config.le_maxRepeat_iff.1 hrep)]

theorem encodeRuns_cons_iff {c : Config} {w : Nat} {ws : List Nat} {rs : List Run} :
    EncodeRuns c (w :: ws) rs ↔
      ∃ r rs', rs = r :: rs' ∧ runOfWord c (w % 2 ^ c.wordW) = some (r.kind, r.rep) ∧ EncodeRuns c ws rs' := by
  constructor
  · rintro ⟨hwords, hreps⟩
    obtain ⟨r, rs', rfl, hr, hrs⟩ := List.map_eq_cons_iff.1 hwords
    obtain ⟨hrep, hreps'⟩ := List.forall_mem_cons.1 hreps
    exact ⟨r, rs', rfl, runOfWord_mod_iff.2 ⟨hr, hrep⟩, hrs, hreps'⟩
  · rintro ⟨r, rs', rfl, hrun, hrs, hreps⟩
    obtain ⟨hr, hrep⟩ := runOfWord_mod_iff.1 hrun
    exact ⟨by rw [List.map_cons, List.map_cons, hr, hrs], List.forall_mem_cons.2 ⟨hrep, hreps⟩⟩

/-! ### While runs are sent -/

/-- The machine in the course of a LOAD that began in `s`: `tape` is pending and everything else is as it was (R120). -/
structure Loading (s : State) (tape : List Run) (u : State) : Prop where
  inv   : Inv u
  same  : SameCommitted s u
  trace : u.trace = s.trace
  wp    : u.wp = s.len + tape.length
  pend  : Memory.slice u.cells s.len tape.length = tape.map (Run.word s.cfg)
  last  : u.pendingEndsInHalt = some (endsInHalt tape)

/-- LOAD has committed `tape` (R120). -/
structure LoadDone (s : State) (tape : List Run) (t : State) : Prop where
  inv      : Inv t
  cfg      : t.cfg = s.cfg
  pc       : t.pc = s.pc
  ir       : t.ir = s.ir
  inputs   : t.inputs = s.inputs
  trace    : t.trace = s.trace
  len      : t.len = s.len + tape.length
  wp       : t.wp = t.len
  mem      : t.mem = s.mem ++ tape.map (Run.word s.cfg)
  response : t.lastResponse = some ⟨.ok, s.len⟩

/-- LOAD has ended with a fault: nothing is pending and nothing was committed (R176). -/
structure LoadFailed (s t : State) : Prop where
  inv   : Inv t
  same  : SameCommitted s t
  trace : t.trace = s.trace
  wp    : t.wp = t.len
  notOk : t.lastOk = false

theorem SameCommitted.trans {s t u : State} (h : SameCommitted s t) (h' : SameCommitted t u) : SameCommitted s u where
  cfg := h'.cfg.trans h.cfg
  pc := h'.pc.trans h.pc
  ir := h'.ir.trans h.ir
  len := h'.len.trans h.len
  inputs := h'.inputs.trans h.inputs
  cells a ha := (h'.cells a (h.len ▸ ha)).trans (h.cells a ha)

theorem SameCommitted.mem {s t : State} (h : SameCommitted s t) : t.mem = s.mem := by
  rw [State.mem, State.mem, h.len]
  exact Memory.slice_congr fun b _ hb => h.cells b (by omega)

theorem sameCommitted_append {s : State} (hle : s.len ≤ s.wp) (k : Kind) (m : Nat) : SameCommitted s (s.append k m) where
  cfg := rfl
  pc := rfl
  ir := rfl
  len := rfl
  inputs := rfl
  cells a ha := (append_appended s k m).others a (.inl (Nat.lt_of_lt_of_le ha hle))

/-- XR_ABORT starts a LOAD with nothing pending (R176). -/
theorem loading_start {s : State} (h : Inv s) : Loading s [] (s.dropPending.respond .ok 0) where
  inv := h.dropPending.respond _ _
  same := ⟨rfl, rfl, rfl, rfl, rfl, (dropPending_dropped s .ok 0).committed⟩
  trace := rfl
  wp := rfl
  pend := rfl
  last := pendingEndsInHalt_of_open fun hlt => absurd hlt (Nat.lt_irrefl s.len)

/-- A tape ended by copies of a unit ends in a Halt exactly when the unit is one. -/
theorem endsInHalt_append_replicate (tape : List Run) (k : Kind) {m : Nat} (hm : 0 < m) :
    endsInHalt (tape ++ List.replicate m (Run.unit k)) = (k == .halt) := by
  have hlast : (tape ++ List.replicate m (Run.unit k)).getLast? = some (Run.unit k) := by
    rw [List.getLast?_append, List.getLast?_replicate, if_neg (Nat.ne_of_gt hm), Option.some_or]
  rw [endsInHalt, hlast]
  rfl

section
variable {s u : State} {tape : List Run}

theorem Loading.respond (h : Loading s tape u) (st : Status) (d : Nat) : Loading s tape (u.respond st d) where
  inv := h.inv.respond st d
  same := ⟨h.same.cfg, h.same.pc, h.same.ir, h.same.len, h.same.inputs, h.same.cells⟩
  trace := h.trace
  wp := h.wp
  pend := h.pend
  last := h.last

/-- The append of units that fit extends the pending tape by them (R114). -/
theorem Loading.append (h : Loading s tape u) (k : Kind) {m : Nat} (hm : 0 < m) (hfits : u.wp + m ≤ u.cfg.memCells) :
    Loading s (tape ++ List.replicate m (Run.unit k)) (u.append k m) := by
  have happ := append_appended u k m
  have hkept : Memory.slice (u.append k m).cells s.len tape.length = tape.map (Run.word s.cfg) := by
    rw [← h.pend]
    exact Memory.slice_congr fun b _ hb => happ.others b (.inl (h.wp ▸ hb))
  have hnew : Memory.slice (u.append k m).cells (s.len + tape.length) m = List.replicate m (k.unitWord s.cfg) := by
    rw [← h.wp, ← h.same.cfg]
    exact Memory.slice_of_read_eq happ.written
  constructor
  case inv => exact h.inv.append k hfits
  case same => exact h.same.trans (sameCommitted_append h.inv.len_le_wp k m)
  case trace => exact h.trace
  case wp => rw [State.append_wp, h.wp, List.length_append, List.length_replicate, Nat.add_assoc]
  case pend =>
    rw [List.length_append, List.length_replicate, Memory.slice_add, hkept, hnew, List.map_append, List.map_replicate]
    rfl
  case last =>
    rw [endsInHalt_append_replicate tape k hm]
    exact happ.pendingEndsInHalt h.inv.len_le_wp hm

/-- A fault of the XR ends the LOAD with the pending tape dropped (R207). -/
theorem Loading.failed (h : Loading s tape u) {f : CmdFault} (hf : f.dropsPending = true) :
    LoadFailed s (takeFault f u) where
  inv := h.inv.takeFault f
  same := h.same.trans (sameCommitted_takeFault f u)
  trace := (takeFault_trace f u).trans h.trace
  wp := by rw [takeFault_wp, if_pos hf, takeFault_len]
  notOk := lastOk_takeFault f u

/-- A commit moves the pending tape to the end of committed memory (R118). -/
theorem Loading.commit (h : Loading s tape u) (hend : endsInHalt tape = true) : LoadDone s tape u.commit where
  inv := h.inv.commit (h.inv.halt_of_pendingEndsInHalt (hend ▸ h.last)).2
  cfg := h.same.cfg
  pc := h.same.pc
  ir := h.same.ir
  inputs := h.same.inputs
  trace := h.trace
  len := h.wp
  wp := rfl
  mem := by
    rw [State.mem, State.commit_len, State.commit_cells, h.wp, Memory.slice_add, Nat.zero_add, h.pend, State.mem]
    exact congrArg (· ++ _) (Memory.slice_congr fun b _ hb => h.same.cells b (by omega))
  response := by
    rw [← h.same.len]
    exact lastResponse_respond _ _ _

/-- Whether the tape, closed, fits above the committed memory of `s` (R118). -/
def TapeFits (s : State) (tape : List Run) : Prop := s.len + (closeTape tape).length ≤ s.cfg.memCells

/-- XR_END commits the tape closed, where that fits (R118). -/
theorem Loading.xrEnd_done (h : Loading s tape u) (arg : Nat) (hfits : TapeFits s tape) :
    ∃ t, exec (.xrEnd arg) u = .next t ∧ LoadDone s (closeTape tape) t := by
  cases hend : endsInHalt tape with
  | true =>
    rw [closeTape_of_endsInHalt hend]
    exact ⟨_, exec_xrEnd_closed arg (hend ▸ h.last), h.commit hend⟩
  | false =>
    have hroom : u.wp + 1 ≤ u.cfg.memCells := by
      rw [TapeFits, closeTape_of_not_endsInHalt hend, List.length_append, ← Nat.add_assoc, ← h.wp] at hfits
      rw [h.same.cfg]
      exact hfits
    have hclosed := endsInHalt_closeTape tape
    rw [closeTape_of_not_endsInHalt hend] at hclosed ⊢
    exact ⟨_, exec_xrEnd_fits arg (hend ▸ h.last) hroom, (h.append .halt Nat.one_pos hroom).commit hclosed⟩

/-- XR_END fails where the tape, closed, does not fit: then the closing Halt is what finds no room (R118). -/
theorem Loading.xrEnd_failed (h : Loading s tape u) (arg : Nat) (hfull : ¬ TapeFits s tape) :
    ∃ t, exec (.xrEnd arg) u = .next t ∧ LoadFailed s t := by
  have hcap := h.inv.wp_le_cap
  rw [TapeFits, length_closeTape, ← Nat.add_assoc, ← h.wp, ← h.same.cfg] at hfull
  cases hend : endsInHalt tape with
  | true => rw [hend] at hfull; exact absurd hcap hfull
  | false =>
    rw [hend] at hfull
    exact ⟨_, exec_xrEnd_full arg (hend ▸ h.last) (Nat.lt_of_not_le hfull), h.failed rfl⟩

/-- A tape no longer than the one that fits fits too, and is pending without its closing Halt. -/
theorem TapeFits.length_le {rest : List Run} (h : TapeFits s (tape ++ rest)) :
    s.len + tape.length ≤ s.cfg.memCells := by
  rw [TapeFits, length_closeTape, List.length_append] at h
  omega

/-! ### Sending the runs -/

/-- How a LOAD that has `tape` pending and is still to send `ws` ends: with the whole tape committed, closed, where `ws` encode runs
and it fits, and with nothing committed where that is not so. -/
structure LoadResult (s : State) (tape : List Run) (ws : List Nat) (t : State) : Prop where
  done   : ∀ rs, EncodeRuns s.cfg ws rs → TapeFits s (tape ++ rs.flatMap expand) →
    LoadDone s (closeTape (tape ++ rs.flatMap expand)) t
  failed : (∀ rs, EncodeRuns s.cfg ws rs → ¬ TapeFits s (tape ++ rs.flatMap expand)) → LoadFailed s t

/-- A LOAD that fails at a word which begins no list of runs that fits. -/
theorem LoadFailed.result {t : State} {ws : List Nat} (h : LoadFailed s t)
    (hnone : ∀ rs, EncodeRuns s.cfg ws rs → ¬ TapeFits s (tape ++ rs.flatMap expand)) : LoadResult s tape ws t :=
  ⟨fun rs henc hfits => absurd hfits (hnone rs henc), fun _ => h⟩

/-- After its first run a LOAD goes on with that run's units pending. -/
theorem LoadResult.cons {t : State} {w : Nat} {ws : List Nat} {k : Kind} {n : Nat}
    (hrun : runOfWord s.cfg (w % 2 ^ s.cfg.wordW) = some (k, n)) (h : LoadResult s (tape ++ expand ⟨k, n⟩) ws t) :
    LoadResult s tape (w :: ws) t := by
  constructor
  · intro rs henc hfits
    obtain ⟨⟨k', n'⟩, rs', rfl, hr, henc'⟩ := encodeRuns_cons_iff.1 henc
    rw [hrun] at hr
    cases hr
    rw [List.flatMap_cons, ← List.append_assoc] at hfits ⊢
    exact h.done rs' henc' hfits
  · intro hnone
    refine h.failed fun rs henc hfits => ?_
    rw [List.append_assoc, ← List.flatMap_cons] at hfits
    exact hnone _ (encodeRuns_cons_iff.2 ⟨_, _, rfl, hrun, henc⟩) hfits

/-- Every list of words is sent to one of the two ends, by induction on the words (R176). -/
theorem Loading.sendRuns {ws : List Nat} (h : Loading s tape u) :
    ∃ t, sendRuns ws u = .next t ∧ LoadResult s tape ws t := by
  induction ws generalizing tape u with
  | nil =>
    rw [sendRuns_nil]
    have hnil : ∀ {rs}, EncodeRuns s.cfg [] rs → tape ++ rs.flatMap expand = tape := by
      intro rs henc
      rw [encodeRuns_nil_iff.1 henc, List.flatMap_nil, List.append_nil]
    by_cases hfits : TapeFits s tape
    · obtain ⟨t, ht, hdone⟩ := h.xrEnd_done _ hfits
      refine ⟨t, ht, fun rs henc _ => ?_, fun hnone => ?_⟩
      · rw [hnil henc]; exact hdone
      · have henc := encodeRuns_nil_iff (c := s.cfg).2 rfl
        exact absurd hfits (hnil henc ▸ hnone [] henc)
    · obtain ⟨t, ht, hfailed⟩ := h.xrEnd_failed _ hfits
      exact ⟨t, ht, hfailed.result fun rs henc => by rw [hnil henc]; exact hfits⟩
  | cons w ws ih =>
    have hword : u.runOperand w = w % 2 ^ s.cfg.wordW := by rw [State.runOperand, h.same.cfg]
    cases hrun : runOfWord s.cfg (w % 2 ^ s.cfg.wordW) with
    | none =>
      have hissue := issue_xrRun_illegal (s := u) (w := w) (by rw [hword, h.same.cfg]; exact hrun)
      refine ⟨_, sendRuns_of_not_ok hissue (lastOk_takeFault _ u), (h.failed rfl).result fun rs henc _ => ?_⟩
      obtain ⟨r, rs', -, hr, -⟩ := encodeRuns_cons_iff.1 henc
      rw [hrun] at hr
      cases hr
    | some r =>
      obtain ⟨k, n⟩ := r
      have hissue := issue_xrRun_run (s := u) (w := w) (k := k) (n := n) (by rw [hword, h.same.cfg]; exact hrun)
      obtain ⟨hfits, e⟩ | ⟨hfull, e⟩ := appendRun_cases k n u
      · rw [e] at hissue
        obtain ⟨t, ht, hresult⟩ := ih ((h.append k (runLength_pos n) hfits).respond .ok 0)
        rw [sendRuns_of_ok hissue (lastOk_of_lastResponse (lastResponse_respond _ _ _))]
        exact ⟨t, ht, hresult.cons hrun⟩
      · rw [e] at hissue
        refine ⟨_, sendRuns_of_not_ok hissue (lastOk_takeFault _ u), (h.failed rfl).result fun rs henc hroom => ?_⟩
        obtain ⟨⟨k', n'⟩, rs', rfl, hr, -⟩ := encodeRuns_cons_iff.1 henc
        rw [hrun] at hr
        cases hr
        rw [List.flatMap_cons, ← List.append_assoc] at hroom
        have hle := hroom.length_le
        rw [List.length_append, length_expand, ← Nat.add_assoc, ← h.wp, ← h.same.cfg] at hle
        exact absurd hle (Nat.not_le.2 hfull)

end

/-- LOAD, whole: it ends, with the source's tape of the runs its words encode or with nothing (R176). -/
theorem load_result {s : State} (h : Inv s) (ws : List Nat) : ∃ t, load ws s = .next t ∧ LoadResult s [] ws t := by
  rw [load_eq]
  exact (loading_start h).sendRuns

/-! ### The statements -/

/-- Settles O48: the words of runs that fit encode those runs, so LOAD ends with the closed tape of them, which is `construct`
(R120, R176). -/
theorem loadAppendsTheConstructedTape : Obligations.LoadAppendsTheConstructedTape := by
  unfold Obligations.LoadAppendsTheConstructedTape
  intro s rs hinv hreps hfits
  have hwords : rs.map (Run.word s.cfg) = (rs.map (Run.word s.cfg)).map (· % 2 ^ s.cfg.wordW) := by
    rw [List.map_map]
    exact List.map_congr_left fun r _ => (Nat.mod_eq_of_lt (runWord_lt s.cfg r.kind r.rep)).symm
  obtain ⟨t, ht, hresult⟩ := load_result hinv (rs.map (Run.word s.cfg))
  have hdone : LoadDone s (construct rs) t := hresult.done rs ⟨hwords, hreps⟩ hfits
  exact ⟨t, ht, hdone.mem, hdone.len, hdone.wp, hdone.pc, hdone.ir, hdone.trace, hdone.cfg, hdone.inputs, hdone.response⟩

/-- Settles O49: whether the words encode runs whose tape fits decides between the two ends of a LOAD (R120, R176). -/
theorem loadIsAllOrNothing : Obligations.LoadIsAllOrNothing := by
  unfold Obligations.LoadIsAllOrNothing
  intro s ws hinv
  obtain ⟨t, ht, hresult⟩ := load_result hinv ws
  refine ⟨t, ht, ?_⟩
  by_cases hruns : ∃ rs, EncodeRuns s.cfg ws rs ∧ TapeFits s (rs.flatMap expand)
  · obtain ⟨rs, henc, hfits⟩ := hruns
    have hdone := hresult.done rs henc hfits
    have hok : t.lastOk = true := lastOk_of_lastResponse hdone.response
    refine ⟨hdone.inv, hdone.pc, hdone.ir, hdone.trace, fun hbad => ?_, iff_of_true hok ⟨rs, henc.1, henc.2, hfits⟩⟩
    rw [hok] at hbad
    cases hbad
  · have hfailed := hresult.failed fun rs henc hfits => hruns ⟨rs, henc, hfits⟩
    refine ⟨hfailed.inv, hfailed.same.pc, hfailed.same.ir, hfailed.trace,
      fun _ => ⟨hfailed.same.mem, hfailed.same.len, hfailed.wp⟩, iff_of_false (Bool.eq_false_iff.1 hfailed.notOk) ?_⟩
    rintro ⟨rs, hwords, hreps, hfits⟩
    exact hruns ⟨rs, ⟨hwords, hreps⟩, hfits⟩

end Sys2Proof.Machine

/-! SUPPORT. Proofs about walks of the sequencer (`41_sequencer.md` section 5, `42_host.md` section 3): n STEPs (R152), RUN (R177,
R178, R182) and DUMP (R179). -/

namespace Sys2Proof.Machine

/-! ### IR and the records along a walk -/

theorem irAfter_cons (c : Config) (ir w : Nat) (ws : List Nat) :
    irAfter c ir (w :: ws) = irAfter c (if isHalt c w then ir else w) ws := by
  rw [irAfter, irAfter]
  cases hw : isHalt c w with
  | true => simp [hw]
  | false => simp [hw, List.getLast?_cons]

/-- A Halt at the end leaves IR as it was (R144). -/
theorem irAfter_concat_halt {c : Config} {ir w : Nat} {ws : List Nat} (hw : isHalt c w = true) :
    irAfter c ir (ws ++ [w]) = irAfter c ir ws := by
  rw [irAfter, irAfter, List.filter_append]
  simp [hw]

theorem recordsOf_cons (a w : Nat) (ws : List Nat) : recordsOf a (w :: ws) = ⟨w, a⟩ :: recordsOf (a + 1) ws := by
  rw [recordsOf, recordsOf, List.zipIdx_cons, List.zipIdx_succ, List.map_cons, List.map_map]
  simp [Nat.add_right_comm, Nat.add_assoc]

/-! ### Walking over cells -/

/-- From `s` to `t` the `n` cells from PC on were stepped over, and nothing else happened (R152). -/
structure Walked (s : State) (n : Nat) (t : State) : Prop where
  cfg       : t.cfg = s.cfg
  cells     : t.cells = s.cells
  len       : t.len = s.len
  wp        : t.wp = s.wp
  inputs    : t.inputs = s.inputs
  pc        : t.pc = s.pc + n
  ir        : t.ir = irAfter s.cfg s.ir (Memory.slice s.cells s.pc n)
  trace     : t.trace = s.trace ++ recordsOf s.pc (Memory.slice s.cells s.pc n)
  responses : t.responses = s.responses ++ (Memory.slice s.cells s.pc n).map fun w => ⟨.ok, w⟩

theorem walked_zero (s : State) : Walked s 0 s :=
  ⟨rfl, rfl, rfl, rfl, rfl, rfl, rfl, (List.append_nil _).symm, (List.append_nil _).symm⟩

/-- A step over the cell at PC goes before a walk. -/
theorem Walked.cons {s t : State} {n w : Nat} (h : Walked (s.stepOver w) n t) (hw : Memory.read s.cells s.pc = some w) :
    Walked s (n + 1) t where
  cfg := h.cfg.trans (stepOver_cfg s w)
  cells := h.cells.trans (stepOver_cells s w)
  len := h.len.trans (stepOver_len s w)
  wp := h.wp.trans (stepOver_wp s w)
  inputs := h.inputs.trans (stepOver_inputs s w)
  pc := by rw [h.pc, stepOver_pc, Nat.add_assoc, Nat.add_comm 1]
  ir := by rw [h.ir, Memory.slice_succ hw, irAfter_cons]; simp
  trace := by rw [h.trace, Memory.slice_succ hw, recordsOf_cons]; simp
  responses := by rw [h.responses, Memory.slice_succ hw]; simp

/-- A STEP offered in range steps over the unit instruction at PC (R140). -/
theorem Inv.issue_step {s : State} (h : Inv s) (hpc : s.pc < s.len) :
    ∃ k : Kind, Memory.read s.cells s.pc = some (k.unitWord s.cfg) ∧
      issue 0x4#4 0 s = .next (s.stepOver (k.unitWord s.cfg)) := by
  obtain ⟨k, hk⟩ := h.memRead_cell hpc
  exact ⟨k, (memRead_cell_iff.1 hk).2, (step_offer_row .step).trans (exec_step_cell _ hk)⟩

theorem steps_succ {n : Nat} {s t : State} (h : issue 0x4#4 0 s = .next t) : steps (n + 1) s = steps n t := by
  simp only [steps, h]

/-- STEPs in range walk, by induction on how many (R152). -/
theorem steps_walked {n : Nat} {s : State} (hinv : Inv s) (hn : s.pc + n ≤ s.len) :
    ∃ t, steps n s = .next t ∧ Walked s n t := by
  induction n generalizing s with
  | zero => exact ⟨s, rfl, walked_zero s⟩
  | succ n ih =>
    have hpc : s.pc < s.len := by omega
    obtain ⟨k, hcell, hissue⟩ := hinv.issue_step hpc
    obtain ⟨t, ht, hwalk⟩ := ih (hinv.stepOver k hpc) (by simp only [stepOver_pc, stepOver_len]; omega)
    exact ⟨t, (steps_succ hissue).trans ht, hwalk.cons hcell⟩

/-- Settles O50: the walk of n STEPs, element by element (R152). -/
theorem stepsWalkTheStore : Obligations.StepsWalkTheStore := by
  unfold Obligations.StepsWalkTheStore
  intro n s hinv hn
  obtain ⟨t, ht, hwalk⟩ := steps_walked hinv hn
  exact ⟨t, ht, ⟨hwalk.cfg, rfl, rfl, hwalk.cells, hwalk.len, hwalk.wp⟩, hwalk.pc, hwalk.ir, hwalk.trace,
    hwalk.responses, hwalk.inputs⟩

/-! ### RUN -/

/-- `h` is the first Halt at or after PC, and is committed (R178). -/
structure FirstHalt (s : State) (h : Nat) : Prop where
  ge     : s.pc ≤ h
  lt     : h < s.len
  halt   : Memory.read s.cells h = some (Kind.unitWord s.cfg .halt)
  before : ∀ a, s.pc ≤ a → a < h → Memory.read s.cells a ≠ some (Kind.unitWord s.cfg .halt)

theorem lastResponse_stepOver (s : State) (w : Nat) : (s.stepOver w).lastResponse = some ⟨.ok, w⟩ := by
  rw [State.lastResponse, stepOver_responses, List.getLast?_concat]

theorem lastOk_stepOver (s : State) (w : Nat) : (s.stepOver w).lastOk = true :=
  lastOk_of_lastResponse (lastResponse_stepOver s w)

theorem lastHalt_stepOver (s : State) (k : Kind) : (s.stepOver (k.unitWord s.cfg)).lastHalt = (k == .halt) := by
  rw [State.lastHalt, lastResponse_stepOver, Option.map_some, stepOver_cfg, isHalt_unitWord]
  cases k <;> rfl

/-- RUN goes on after a STEP that answered OK with a word that is no Halt (R177). -/
theorem runAtMost_of_goes_on {n : Nat} {s t : State} (h : issue 0x4#4 0 s = .next t) (hok : t.lastOk = true)
    (hhalt : t.lastHalt = false) : runAtMost (n + 1) s = runAtMost n t := by
  simp only [runAtMost, h, hok, hhalt, Bool.not_false, Bool.and_self, if_true]

/-- RUN ends with the STEP that fetched a Halt (R177). -/
theorem runAtMost_of_halt {n : Nat} {s t : State} (h : issue 0x4#4 0 s = .next t) (hhalt : t.lastHalt = true) :
    runAtMost (n + 1) s = .next t := by
  simp only [runAtMost, h, hhalt, Bool.not_true, Bool.and_false, if_neg Bool.false_ne_true]

/-- RUN ends with the STEP that was not OK (R177). -/
theorem runAtMost_of_not_ok {n : Nat} {s t : State} (h : issue 0x4#4 0 s = .next t) (hbad : t.lastOk = false) :
    runAtMost (n + 1) s = .next t := by
  simp only [runAtMost, h, hbad, Bool.false_and, if_neg Bool.false_ne_true]

/-- The cell at LEN-1 is a Halt, so a cell below LEN that is none has a committed one after it (R28 item 3). -/
theorem Inv.succ_pc_lt_of_ne_halt {s : State} {k : Kind} (h : Inv s) (hpc : s.pc < s.len)
    (hcell : Memory.read s.cells s.pc = some (k.unitWord s.cfg)) (hk : k ≠ .halt) : s.pc + 1 < s.len := by
  by_contra hend
  obtain hlast : s.len - 1 = s.pc := by omega
  have hclosed := h.closed (Nat.lt_of_le_of_lt (Nat.zero_le _) hpc)
  rw [hlast, hcell] at hclosed
  exact hk (unitWord_inj (Option.some.inj hclosed))

/-- Past a cell that is no Halt the first Halt is the same. -/
theorem FirstHalt.of_stepOver {s : State} {k : Kind} {h : Nat} (hf : FirstHalt (s.stepOver (k.unitWord s.cfg)) h)
    (hcell : Memory.read s.cells s.pc = some (k.unitWord s.cfg)) (hk : k ≠ .halt) : FirstHalt s h := by
  obtain ⟨hge, hlt, hhalt, hbefore⟩ := hf
  simp only [stepOver_pc, stepOver_len, stepOver_cells, stepOver_cfg] at hge hlt hhalt hbefore
  refine ⟨by omega, hlt, hhalt, fun a ha hah => ?_⟩
  obtain rfl | hne := Nat.eq_or_lt_of_le ha
  · rw [hcell]
    exact fun e => hk (unitWord_inj (Option.some.inj e))
  · exact hbefore a hne hah

/-- With steps enough for what is committed, RUN walks to the first Halt and over it, by induction on the bound (R178). -/
theorem runAtMost_walked {n : Nat} {s : State} (hinv : Inv s) (hpc : s.pc < s.len) (hn : s.len - s.pc ≤ n) :
    ∃ t h, runAtMost n s = .next t ∧ FirstHalt s h ∧ Walked s (h - s.pc + 1) t := by
  induction n generalizing s with
  | zero => omega
  | succ n ih =>
    obtain ⟨k, hcell, hissue⟩ := hinv.issue_step hpc
    have hlast := lastHalt_stepOver s k
    by_cases hk : k = .halt
    · subst hk
      have hfirst : FirstHalt s s.pc :=
        ⟨Nat.le_refl _, hpc, hcell, fun a ha hlt => absurd ha (Nat.not_le.2 hlt)⟩
      refine ⟨_, s.pc, runAtMost_of_halt hissue hlast, hfirst, ?_⟩
      rw [Nat.sub_self]
      exact (walked_zero _).cons hcell
    · have hnext := hinv.succ_pc_lt_of_ne_halt hpc hcell hk
      obtain ⟨t, h, ht, hfirst, hwalk⟩ := ih (hinv.stepOver k hpc) (by simp only [stepOver_pc, stepOver_len]; omega)
        (by simp only [stepOver_pc, stepOver_len]; omega)
      refine ⟨t, h, ?_, hfirst.of_stepOver hcell hk, ?_⟩
      · rw [runAtMost_of_goes_on hissue (lastOk_stepOver s _) (by rw [hlast]; exact beq_false_of_ne hk)]
        exact ht
      · have hge := hfirst.ge
        rw [stepOver_pc] at hge hwalk
        have hcount : h - s.pc + 1 = h - (s.pc + 1) + 1 + 1 := by omega
        rw [hcount]
        exact hwalk.cons hcell

/-- The cells walked over end with the Halt. -/
theorem FirstHalt.slice_eq {s : State} {h : Nat} (hf : FirstHalt s h) :
    Memory.slice s.cells s.pc (h - s.pc + 1) =
      Memory.slice s.cells s.pc (h - s.pc) ++ [Kind.unitWord s.cfg .halt] := by
  have hlast : s.pc + (h - s.pc) = h := Nat.add_sub_of_le hf.ge
  rw [Memory.slice_add, hlast, Memory.slice_succ hf.halt, Memory.slice_zero]

/-- Settles O51: from a PC in range RUN walks to the first Halt, which does not reach IR and is the last response; from any
other its first STEP is OutOfRange (R177, R178, R182; log 13). -/
theorem runEndsAtTheFirstHalt : Obligations.RunEndsAtTheFirstHalt := by
  unfold Obligations.RunEndsAtTheFirstHalt
  refine fun s hinv => ⟨fun hpc => ?_, fun hpc => ?_⟩
  · obtain ⟨t, h, ht, hfirst, hwalk⟩ := runAtMost_walked hinv hpc (Nat.le_succ _)
    have hpc' : t.pc = h + 1 := by
      rw [hwalk.pc, ← Nat.add_assoc, Nat.add_sub_of_le hfirst.ge]
    have hir : t.ir = irAfter s.cfg s.ir (Memory.slice s.cells s.pc (h - s.pc)) := by
      rw [hwalk.ir, hfirst.slice_eq, irAfter_concat_halt (isHalt_unitWord s.cfg .halt)]
    have hresp : t.lastResponse = some ⟨.ok, Kind.unitWord s.cfg .halt⟩ := by
      rw [State.lastResponse, hwalk.responses, hfirst.slice_eq, List.map_append, ← List.append_assoc]
      exact List.getLast?_concat
    rw [← unitWord_halt]
    exact ⟨t, h, ht, hfirst.ge, hfirst.lt, hfirst.halt, hfirst.before, hpc', hir, hwalk.trace, hwalk.cfg, hwalk.cells,
      hwalk.len, hwalk.wp, hwalk.inputs, hresp⟩
  · have hissue : issue 0x4#4 0 s = .next (takeFault (.outOfRange s.pc) s) :=
      (step_offer_row .step).trans (exec_step_outOfRange _ hpc)
    exact ⟨_, runAtMost_of_not_ok hissue (lastOk_takeFault _ s), sameMachine_takeFault rfl s, rfl, rfl, rfl⟩

/-! ### DUMP -/

/-- The cells with content among the `n` from address `a` on, each with its address. -/
def Memory.listing (m : Memory) (a n : Nat) : List (Nat × Nat) :=
  (List.range' a n).filterMap fun b => (Memory.read m b).map fun w => (b, w)

theorem Memory.listing_succ {m : Memory} {a w : Nat} (h : Memory.read m a = some w) (n : Nat) :
    Memory.listing m a (n + 1) = (a, w) :: Memory.listing m (a + 1) n := by
  rw [Memory.listing, Memory.listing, List.range'_succ, List.filterMap_cons_some (by rw [h, Option.map_some])]

theorem memoryDump_eq (s : State) : s.memoryDump = Memory.listing s.cells 0 s.len := by
  rw [State.memoryDump, List.range_eq_range']
  rfl

/-- Where every cell has content, the listing has every address. -/
theorem Memory.listing_addresses {m : Memory} {n a : Nat} (h : ∀ b, b < a + n → ∃ w, Memory.read m b = some w) :
    (Memory.listing m a n).map Prod.fst = List.range' a n := by
  induction n generalizing a with
  | zero => rfl
  | succ n ih =>
    obtain ⟨w, hw⟩ := h a (by omega)
    rw [Memory.listing_succ hw, List.map_cons, ih fun b hb => h b (by omega), List.range'_succ]

theorem issue_rdLen (s : State) : issue 0xA#4 0 s = .next (s.respond .ok s.len) := step_offer_row .rdLen

/-- A FETCH offered for a committed address answers the cell's word (R171). -/
theorem Inv.issue_fetch {s : State} (h : Inv s) {a : Nat} (ha : a < s.len) :
    ∃ w, Memory.read s.cells a = some w ∧ issue 0x7#4 a s = .next (s.respond .ok w) := by
  obtain ⟨k, hcell, hfetch⟩ := h.exec_fetch ha
  exact ⟨_, hcell, (step_offer_row .fetch).trans ((exec_fetch_congr (addrOperand_mod s a)).trans hfetch)⟩

theorem fetchFrom_succ {n a w : Nat} {l : List (Nat × Nat)} {s t : State} (h : issue 0x7#4 a s = .next (s.respond .ok w))
    (hrest : fetchFrom n (a + 1) (s.respond .ok w) = .next (l, t)) :
    fetchFrom (n + 1) a s = .next ((a, w) :: l, t) := by
  simp only [fetchFrom, h, hrest, lastResponse_respond, Option.map_some, Option.toList_some, List.singleton_append]

/-- FETCH of committed addresses one by one lists them, by induction on how many (R179). -/
theorem fetchFrom_listing {n a : Nat} {s : State} (hinv : Inv s) (hn : a + n ≤ s.len) :
    ∃ t, fetchFrom n a s = .next (Memory.listing s.cells a n, t) ∧ SameMachine s t ∧ t.trace = s.trace := by
  induction n generalizing a s with
  | zero => exact ⟨s, rfl, ⟨rfl, rfl, rfl, rfl, rfl, rfl⟩, rfl⟩
  | succ n ih =>
    obtain ⟨w, hcell, hissue⟩ := hinv.issue_fetch (a := a) (by omega)
    obtain ⟨t, ht, hsame, htrace⟩ := ih (a := a + 1) (hinv.respond .ok w) (by rw [State.respond_len]; omega)
    rw [Memory.listing_succ hcell]
    exact ⟨t, fetchFrom_succ hissue ht, (sameMachine_respond s .ok w).trans hsame, htrace⟩

theorem dump_eq (s : State) : dump s = fetchFrom s.len 0 (s.respond .ok s.len) := by
  simp only [dump, issue_rdLen, lastResponse_respond, Option.map_some, Option.getD_some]

/-- Settles O52: the listing of the FETCHes below LEN is the memory dump, and under the invariant no address is missing from it
(R67, R179). -/
theorem dumpListsCommittedMemory : Obligations.DumpListsCommittedMemory := by
  unfold Obligations.DumpListsCommittedMemory
  intro s hinv
  have hle : 0 + s.len ≤ (s.respond .ok s.len).len := Nat.le_of_eq (Nat.zero_add _)
  obtain ⟨t, ht, hsame, htrace⟩ := fetchFrom_listing (hinv.respond .ok s.len) hle
  have hfull : ∀ b, b < 0 + s.len → ∃ w, Memory.read s.cells b = some w := by
    intro b hb
    obtain ⟨w, hw, -⟩ := hinv.cells_unit b (Nat.lt_of_lt_of_le (Nat.zero_add s.len ▸ hb) hinv.len_le_wp)
    exact ⟨w, hw⟩
  rw [dump_eq, memoryDump_eq, List.range_eq_range']
  exact ⟨t, _, ht, (sameMachine_respond s .ok s.len).trans hsame, htrace, rfl, Memory.listing_addresses hfull⟩

end Sys2Proof.Machine
